-- ==== Sys2Proof/Word.lean ====
section
/-! DEFINITION. The bit-vector types of the block: bytes, nibbles and the 32-bit delay (00_scope.md R10, R20). -/

namespace Sys2Proof

/-- Every transport, buffer and payload element is an 8-bit byte (R10). -/
abbrev Byte := BitVec 8

/-- A port or a command code is a 4-bit value (R10). -/
abbrev Nibble := BitVec 4

/-- The transmit-delay setting is 32 bits, unsigned, in milliseconds (R10, 10_state.md R34). -/
abbrev Word32 := BitVec 32

end Sys2Proof
end

