-- ==== Sys2Proof/Config.lean ====
section
/-! DEFINITION. The parameters of an instance (00_scope.md R11 to R18), fixed at construction and written by no rule
(10_state.md R54), and the one family of free values (R16). -/

namespace Sys2Proof

/-- `P_GATE_AFTER_RETURN` (R18): STOP, or CONTINUE (here `continueRead`). -/
inductive GateAfterReturn where
  | stop
  | continueRead
deriving DecidableEq, Repr

/-- `TXDELAY_PARSE` (R16): the default function of 42_router.md R138, or another total function, named by its number in
the family `Config.otherParse`. -/
inductive ParseChoice where
  | standard
  | other (k : Nat)
deriving DecidableEq, Repr

/-- The configuration of an instance: an argument of the step relation (10_state.md R54). -/
structure Config where
  /-- `N`, the capacity of the command buffer in bytes (R11). -/
  n : Nat
  /-- `MY_PORT`, the configured port (R12). -/
  myPort : Nibble
  /-- `DATA_PRIORITY` (R13). DESIGN CHOICE (log entry 7): the dispatcher's priority type is held as a natural number,
  with which nothing is computed. -/
  dataPriority : Nat
  /-- `TXDELAY_RESET` (R14). -/
  txdelayReset : Word32
  /-- `REPLY_CAP` (R15). -/
  replyCap : Nat
  /-- `TXDELAY_PARSE` (R16). -/
  txdelayParse : ParseChoice
  /-- `P_EMPTY_DELIM_CLEARS_ESC` (R17). -/
  emptyDelimClearsEsc : Bool
  /-- `P_GATE_AFTER_RETURN` (R18). -/
  gateAfterReturn : GateAfterReturn
deriving DecidableEq, Repr

/-- FREE VALUE (log entry 8): the total functions from TxDelay data to a 32-bit value that R16 lets an instance use in
place of the default. Nothing is known of any of them. -/
opaque Config.otherParse : Nat → List Byte → Word32

/-- The configurations that have a meaning: `N >= 2`, `MY_PORT` not 15, `REPLY_CAP >= 5` (60_exceptions.md R184). -/
def Config.legal (c : Config) : Bool :=
  decide (2 ≤ c.n) && decide (c.myPort ≠ 15#4) && decide (5 ≤ c.replyCap)

/-- The configuration of `Machine.State.reset`. `N`, the parse function and the two switches are the spec's defaults
(R11, R16, R17, R18). DESIGN CHOICE (log entries 2, 3): `MY_PORT = 0` and `REPLY_CAP = 5`, the default configuration of
95_test_vectors.md, and 0 for the OPEN `DATA_PRIORITY` and `TXDELAY_RESET`. Statements speak of every configuration. -/
def Config.reference : Config :=
  { n := 500
    myPort := 0#4
    dataPriority := 0
    txdelayReset := 0#32
    replyCap := 5
    txdelayParse := .standard
    emptyDelimClearsEsc := false
    gateAfterReturn := .stop }

end Sys2Proof
end

