-- ==== Sys2Proof/Syntax.lean ====
section
/-! DEFINITION. The operations of the block, one constructor per row of spec/opcode_table.json, and the five formats
that the rows belong to (30_encoding.md, opening paragraph). -/

namespace Sys2Proof

/-- The format of a row: which decoder of the block reads it (30_encoding.md). -/
inductive Format where
  | rxByte
  | encRequest
  | encPayloadByte
  | header8
  | vendorSubcmd8
deriving DecidableEq, Repr

/-- The operations. An operand is a field of the row (spec/opcode_table.json). -/
inductive Instr where
  /-- FEED_ESC: received byte 0xDB (41_deframer.md R114). -/
  | feedEsc
  /-- FEED_DELIM: received byte 0xC0 (R115). -/
  | feedDelim
  /-- FEED_TESC: received byte 0xDD (R116). -/
  | feedTesc
  /-- FEED_TDELIM: received byte 0xDC (R117). -/
  | feedTdelim
  /-- FEED_OTHER: any other received byte (R118). -/
  | feedOther (b : Byte)
  /-- ENCODE: an encode request with its operands cmd, port_sel, P and C (40_encoder.md R99). -/
  | encodeReq (cmd : Nibble) (portSel : Option Nibble) (payload : List Byte) (cap : Nat)
  /-- ENC_STUFF_DELIM: payload byte 0xC0 (R103). -/
  | encStuffDelim
  /-- ENC_STUFF_ESC: payload byte 0xDB (R104). -/
  | encStuffEsc
  /-- ENC_LITERAL: any other payload byte (R105). -/
  | encLiteral (b : Byte)
  /-- RETURN: header 0xFF (42_router.md R134). -/
  | returnCli
  /-- UNADDRESSED: a header for another port (R135). -/
  | unaddressed (port cmd : Nibble)
  /-- GLOBAL_OTHER: the global port with a command other than Return (R136). -/
  | globalOther (cmd : Nibble)
  /-- DATA (R139). -/
  | data (port : Nibble)
  /-- TXDELAY (R137). -/
  | txDelay (port : Nibble)
  /-- PERSIST (R140). -/
  | persist (port : Nibble)
  /-- SLOTTIME (R141). -/
  | slotTime (port : Nibble)
  /-- TXTAIL (R142). -/
  | txTail (port : Nibble)
  /-- FULLDUPLEX (R143). -/
  | fullDuplex (port : Nibble)
  /-- VENDOR (R144). -/
  | vendor (port : Nibble)
  /-- CMD_UNDEF_7: undefined command code 7 on `MY_PORT` (R145). -/
  | cmdUndef7 (port : Nibble)
  /-- CMD_UNDEF_8: undefined command code 8 on `MY_PORT` (R145). -/
  | cmdUndef8 (port : Nibble)
  /-- CMD_UNDEF_9: undefined command code 9 on `MY_PORT` (R145). -/
  | cmdUndef9 (port : Nibble)
  /-- CMD_UNDEF_10: undefined command code 10 on `MY_PORT` (R145). -/
  | cmdUndef10 (port : Nibble)
  /-- CMD_UNDEF_11: undefined command code 11 on `MY_PORT` (R145). -/
  | cmdUndef11 (port : Nibble)
  /-- CMD_UNDEF_12: undefined command code 12 on `MY_PORT` (R145). -/
  | cmdUndef12 (port : Nibble)
  /-- CMD_UNDEF_13: undefined command code 13 on `MY_PORT` (R145). -/
  | cmdUndef13 (port : Nibble)
  /-- CMD_UNDEF_14: undefined command code 14 on `MY_PORT` (R145). -/
  | cmdUndef14 (port : Nibble)
  /-- CMD_RETURN_LOCAL: command 15 on `MY_PORT` (R146). -/
  | cmdReturnLocal (port : Nibble)
  /-- GETRADIOSTATS: vendor sub-command 0x01 (43_vendor.md R153). -/
  | getRadioStats
  /-- SIGNALREPORTING: vendor sub-command 0x80 (R154). -/
  | signalReporting
  /-- VENDOR_UNKNOWN: any other vendor sub-command (R155). -/
  | vendorUnknown (sub : Byte)
deriving DecidableEq, Repr

end Sys2Proof
end

