-- ==== Sys2Proof/WellFormed.lean ====
section
/-! DEFINITION. Which operations are well formed for an instance of port `myPort`: the conditions that the rows of
spec/opcode_table.json put on their fields. -/

namespace Sys2Proof

/-- The condition of each row. A default row (mask 0x00) leaves out the values of the rows above it (30_encoding.md
R76, 40_encoder.md R105, 43_vendor.md R155); an own-port row needs `port = MY_PORT` (42_router.md R133); UNADDRESSED
needs another port, and a global header is read as GLOBAL_OTHER, its sub-case (R136; DEDUCED, log entry 18). -/
def wellFormed (myPort : Nibble) : Instr → Bool
  | .feedEsc => true
  | .feedDelim => true
  | .feedTesc => true
  | .feedTdelim => true
  | .feedOther b => decide (b ≠ 0xC0#8) && decide (b ≠ 0xDB#8) && decide (b ≠ 0xDC#8) && decide (b ≠ 0xDD#8)
  | .encodeReq _ _ _ _ => true
  | .encStuffDelim => true
  | .encStuffEsc => true
  | .encLiteral b => decide (b ≠ 0xC0#8) && decide (b ≠ 0xDB#8)
  | .returnCli => true
  | .unaddressed port _ => decide (port ≠ myPort) && decide (port ≠ 15#4)
  | .globalOther cmd => decide (cmd ≠ 15#4)
  | .data port => decide (port = myPort)
  | .txDelay port => decide (port = myPort)
  | .persist port => decide (port = myPort)
  | .slotTime port => decide (port = myPort)
  | .txTail port => decide (port = myPort)
  | .fullDuplex port => decide (port = myPort)
  | .vendor port => decide (port = myPort)
  | .cmdUndef7 port => decide (port = myPort)
  | .cmdUndef8 port => decide (port = myPort)
  | .cmdUndef9 port => decide (port = myPort)
  | .cmdUndef10 port => decide (port = myPort)
  | .cmdUndef11 port => decide (port = myPort)
  | .cmdUndef12 port => decide (port = myPort)
  | .cmdUndef13 port => decide (port = myPort)
  | .cmdUndef14 port => decide (port = myPort)
  | .cmdReturnLocal port => decide (port = myPort)
  | .getRadioStats => true
  | .signalReporting => true
  | .vendorUnknown sub => decide (sub ≠ 0x01#8) && decide (sub ≠ 0x80#8)

end Sys2Proof
end

