-- ==== Sys2Proof/Decode.lean ====
section
/-! DEFINITION. The four decoders of bytes of the block (30_encoding.md), total, and the encoder of the same tables. -/

namespace Sys2Proof

/-- DELIM, the frame delimiter (00_scope.md R22). -/
abbrev delimByte : Byte := 0xC0#8
/-- ESC, the escape byte (R22). -/
abbrev escByte : Byte := 0xDB#8
/-- TDELIM, the transposed delimiter (R22). -/
abbrev tdelimByte : Byte := 0xDC#8
/-- TESC, the transposed escape (R22). -/
abbrev tescByte : Byte := 0xDD#8
/-- SENTINEL, the payload of the vendor fallback reply (R23). -/
abbrev sentinelByte : Byte := 0xFF#8
/-- GLOBAL, the global port (R23). -/
abbrev globalPort : Nibble := 15#4
/-- The command code Return (R23). -/
abbrev returnCode : Nibble := 15#4
/-- The command code Vendor (R23). -/
abbrev vendorCode : Nibble := 6#4
/-- The sub-command GetRadioStats (R23). -/
abbrev getRadioStatsByte : Byte := 0x01#8
/-- The sub-command SignalReporting (R23). -/
abbrev signalReportingByte : Byte := 0x80#8

/-- `port = hdr[7:4]` (R20, 30_encoding.md R87). -/
def headerPort (h : Byte) : Nibble := h.extractLsb' 4 4

/-- `cmd = hdr[3:0]` (R20, R87). -/
def headerCmd (h : Byte) : Nibble := h.extractLsb' 0 4

/-- `zext_8(p) * 16 + cmd`, the header `(p << 4) | cmd` (40_encoder.md R99). -/
def headerByte (port cmd : Nibble) : Byte := port.setWidth 8 * 16#8 + cmd.setWidth 8

/-- The class of a received byte (30_encoding.md R76, 41_deframer.md R113). -/
def decodeRx (b : Byte) : Instr :=
  if b = escByte then .feedEsc
  else if b = delimByte then .feedDelim
  else if b = tescByte then .feedTesc
  else if b = tdelimByte then .feedTdelim
  else .feedOther b

/-- The class of a payload byte in the encoder (40_encoder.md R103 to R105). -/
def decodePayload (b : Byte) : Instr :=
  if b = delimByte then .encStuffDelim
  else if b = escByte then .encStuffEsc
  else .encLiteral b

/-- The command rows of `MY_PORT`, by command code (30_encoding.md R81, 42_router.md R133). -/
def ownCommand (port cmd : Nibble) : Instr :=
  match cmd.toNat with
  | 0 => .data port
  | 1 => .txDelay port
  | 2 => .persist port
  | 3 => .slotTime port
  | 4 => .txTail port
  | 5 => .fullDuplex port
  | 6 => .vendor port
  | 7 => .cmdUndef7 port
  | 8 => .cmdUndef8 port
  | 9 => .cmdUndef9 port
  | 10 => .cmdUndef10 port
  | 11 => .cmdUndef11 port
  | 12 => .cmdUndef12 port
  | 13 => .cmdUndef13 port
  | 14 => .cmdUndef14 port
  | _ => .cmdReturnLocal port

/-- The row of a header byte, in the order of 30_encoding.md R86: Return first, then the port filter (a global header
that is not Return is the row GLOBAL_OTHER, R136), then the command code. -/
def decodeHeader (myPort : Nibble) (h : Byte) : Instr :=
  if headerPort h = globalPort ∧ headerCmd h = returnCode then .returnCli
  else if headerPort h ≠ myPort then
    if headerPort h = globalPort then .globalOther (headerCmd h)
    else .unaddressed (headerPort h) (headerCmd h)
  else ownCommand (headerPort h) (headerCmd h)

/-- The row of a vendor sub-command byte (30_encoding.md R83, 43_vendor.md R151). -/
def decodeVendor (sub : Byte) : Instr :=
  if sub = getRadioStatsByte then .getRadioStats
  else if sub = signalReportingByte then .signalReporting
  else .vendorUnknown sub

/-- Why bytes are not decoded. -/
inductive Reject where
  /-- There is no byte to read. -/
  | noByte
  /-- An encode request is a transaction with operands, not a byte pattern (spec/opcode_table.json, row ENCODE). -/
  | notABytePattern
deriving DecidableEq, Repr

/-- What a decoder answers: an operation and the bytes after it, or a rejection by name. -/
inductive Decoded where
  | ok (i : Instr) (rest : List Byte)
  | rejected (why : Reject)
deriving DecidableEq, Repr

/-- The decoder of one format on any bytes. -/
def decode (f : Format) (myPort : Nibble) (bytes : List Byte) : Decoded :=
  match f, bytes with
  | .encRequest, _ => .rejected .notABytePattern
  | _, [] => .rejected .noByte
  | .rxByte, b :: rest => .ok (decodeRx b) rest
  | .encPayloadByte, b :: rest => .ok (decodePayload b) rest
  | .header8, b :: rest => .ok (decodeHeader myPort b) rest
  | .vendorSubcmd8, b :: rest => .ok (decodeVendor b) rest

/-- The format that a row belongs to (spec/opcode_table.json, "format"). -/
def formatOf : Instr → Format
  | .feedEsc => .rxByte
  | .feedDelim => .rxByte
  | .feedTesc => .rxByte
  | .feedTdelim => .rxByte
  | .feedOther _ => .rxByte
  | .encodeReq _ _ _ _ => .encRequest
  | .encStuffDelim => .encPayloadByte
  | .encStuffEsc => .encPayloadByte
  | .encLiteral _ => .encPayloadByte
  | .returnCli => .header8
  | .unaddressed _ _ => .header8
  | .globalOther _ => .header8
  | .data _ => .header8
  | .txDelay _ => .header8
  | .persist _ => .header8
  | .slotTime _ => .header8
  | .txTail _ => .header8
  | .fullDuplex _ => .header8
  | .vendor _ => .header8
  | .cmdUndef7 _ => .header8
  | .cmdUndef8 _ => .header8
  | .cmdUndef9 _ => .header8
  | .cmdUndef10 _ => .header8
  | .cmdUndef11 _ => .header8
  | .cmdUndef12 _ => .header8
  | .cmdUndef13 _ => .header8
  | .cmdUndef14 _ => .header8
  | .cmdReturnLocal _ => .header8
  | .getRadioStats => .vendorSubcmd8
  | .signalReporting => .vendorSubcmd8
  | .vendorUnknown _ => .vendorSubcmd8

/-- The bytes of an operation, from the match values and fields of spec/opcode_table.json. An encode request has no
bytes: it is no byte pattern. -/
def encode : Instr → List Byte
  | .feedEsc => [0xDB#8]
  | .feedDelim => [0xC0#8]
  | .feedTesc => [0xDD#8]
  | .feedTdelim => [0xDC#8]
  | .feedOther b => [b]
  | .encodeReq _ _ _ _ => []
  | .encStuffDelim => [0xC0#8]
  | .encStuffEsc => [0xDB#8]
  | .encLiteral b => [b]
  | .returnCli => [0xFF#8]
  | .unaddressed port cmd => [headerByte port cmd]
  | .globalOther cmd => [headerByte 15#4 cmd]
  | .data port => [headerByte port 0#4]
  | .txDelay port => [headerByte port 1#4]
  | .persist port => [headerByte port 2#4]
  | .slotTime port => [headerByte port 3#4]
  | .txTail port => [headerByte port 4#4]
  | .fullDuplex port => [headerByte port 5#4]
  | .vendor port => [headerByte port 6#4]
  | .cmdUndef7 port => [headerByte port 7#4]
  | .cmdUndef8 port => [headerByte port 8#4]
  | .cmdUndef9 port => [headerByte port 9#4]
  | .cmdUndef10 port => [headerByte port 10#4]
  | .cmdUndef11 port => [headerByte port 11#4]
  | .cmdUndef12 port => [headerByte port 12#4]
  | .cmdUndef13 port => [headerByte port 13#4]
  | .cmdUndef14 port => [headerByte port 14#4]
  | .cmdReturnLocal port => [headerByte port 15#4]
  | .getRadioStats => [0x01#8]
  | .signalReporting => [0x80#8]
  | .vendorUnknown sub => [sub]

/-- One byte of the table, read by the first decoder (received byte, header, vendor sub-command) in which it is a row
with a fixed bit; a byte that is in none of them is FEED_OTHER, the default row of the received bytes. DESIGN CHOICE
(log entry 15): the table's rows of different formats share byte values, and a bare byte does not name its format. The
port is that of `Config.reference`. -/
def decodeTableByte (b : Byte) : Instr :=
  if b = escByte ∨ b = delimByte ∨ b = tescByte ∨ b = tdelimByte then decodeRx b
  else if headerPort b = Config.reference.myPort ∨ headerPort b = globalPort then
    decodeHeader Config.reference.myPort b
  else if b = signalReportingByte then decodeVendor b
  else decodeRx b

/-- The operation read from a word of spec/opcode_table.json. Every row with bits is one byte; the row ENCODE has no
bits, and its operands are then all zero (log entry 15). -/
def decodeTableWord (nbits w : Nat) : Option Instr :=
  if nbits = 8 then some (decodeTableByte (BitVec.ofNat 8 w))
  else if nbits = 0 then some (.encodeReq 0#4 none [] 0)
  else none

end Sys2Proof
end

