-- ==== Sys2Proof/Machine/State.lean ====
section
/-! DEFINITION. The state of the block (10_state.md), the inputs offered to it and the events it emits, as plain data;
the reasons a step can stop; the state after reset. -/

namespace Sys2Proof.Machine

/-- The mode flag `MODE` (10_state.md R36, 60_exceptions.md R176). -/
inductive Mode where
  | cli
  | kiss
deriving DecidableEq, Repr

/-- The output events of the block (R46 to R49). -/
inductive Event where
  /-- `TxWrite(bytes)` (R46). -/
  | txWrite (bytes : List Byte)
  /-- `Submit(payload, priority, delay_ms)` (R47). -/
  | submit (payload : List Byte) (priority : Nat) (delayMs : Word32)
  /-- `SetModeCLI` (R49). -/
  | setModeCli
deriving DecidableEq, Repr

/-- The eight diagnostic conditions (60_exceptions.md R159). -/
inductive Condition where
  | doubleEsc
  | unknownEsc
  | overflowTrunc
  | unaddressed
  | unknownVendor
  | encTrunc
  | undefCmd
  | escAtDelim
deriving DecidableEq, Repr

/-- What the outside offers the block, in order (log entry 1). -/
inductive Input where
  /-- A byte read from the transport (R43); `firstOfRead` marks the first byte of a transport read (log entry 9). -/
  | byte (b : Byte) (firstOfRead : Bool)
  /-- An encode request (R45) with the caller-supplied output buffer (20_memory.md R57): `ob` is the bytes it holds from
  index 0 on; an index of it beyond `ob` has no value (log entry 12). -/
  | encode (cmd : Nibble) (portSel : Option Nibble) (payload : List Byte) (cap : Nat) (ob : List Byte)
  /-- A write of the mode flag by the host (R49). -/
  | hostMode (m : Mode)
deriving DecidableEq, Repr

/-- A byte store, as cells of strictly rising index. An index that is not listed has no value (log entry 5). -/
abbrev Memory := List Host.Cell

/-- The caller-supplied output buffer of an encode request (20_memory.md R57): its bytes, how many the encoder has
written, and the capacity `C` of the request. -/
structure OutBuf where
  mem : Memory
  olen : Nat
  cap : Nat
deriving DecidableEq, Repr

/-- The block's state (10_state.md R30), its configuration (R54), its inputs and outputs, and the diagnostic traces. -/
structure State where
  /-- The configuration, an argument of the step relation that no rule writes (R54). -/
  cfg : Config
  /-- The inputs not yet consumed, first first: the RX stream (20_memory.md R58) with the encode requests and the host's
  writes of the mode flag between its bytes. -/
  inputs : List Input
  /-- `CB`, the command buffer (R31). -/
  cb : Memory
  /-- `len`, the number of valid bytes in `CB` (R32). -/
  len : Nat
  /-- `esc`, the escape-pending flag (R33). -/
  esc : Bool
  /-- `txdelay`, the transmit-delay setting (R34). -/
  txdelay : Word32
  /-- `MODE`, the shared mode flag (R36). -/
  mode : Mode
  /-- The model's own (log entry 9): a Return was performed in the transport read in progress. -/
  returnInRead : Bool
  /-- The caller's output buffer of the external encode request served last (R45, log entry 12). -/
  out : OutBuf
  /-- The event history (R48). -/
  events : List Event
  /-- The diagnostic condition trace (00_scope.md R24); no rule reads it (log entry 17). -/
  conds : List Condition
  /-- The sequence of routed buffers (41_deframer.md R129); no rule reads it (log entry 17). -/
  routed : List (List Byte)
deriving DecidableEq, Repr

/-- The reasons for a fault. The block itself never faults (60_exceptions.md R158): both are accesses to storage that
the spec says does not exist or holds no value, and no state of `Inv` reaches one. -/
inductive Fault where
  /-- APPEND at an index `>= N` of `CB` (R31): raised by `append`. Safe: the model stops, and the block never gets
  there (log entry 6). -/
  | cbNoSuchIndex
  /-- DISPATCH or a router command reads a byte of `CB` that nothing has written (R53): raised by `dispatch` and
  `onCommand`. Safe, as above (log entry 5). -/
  | cbUnwritten
deriving DecidableEq, Repr

/-- The reasons for a refusal. -/
inductive Refusal where
  /-- An operation with no meaning yet: raised only by `exec`, by name. Safe. -/
  | notModelled (mnemonic : String)
  /-- An instance with `N < 2`, `MY_PORT = 15` or `REPLY_CAP < 5` (60_exceptions.md R184): raised by every operation
  and every step, through `onInstance`. Safe: nothing is claimed of such an instance. -/
  | illegalConfiguration
deriving DecidableEq, Repr

/-- What an operation or a step answers. -/
abbrev Result := Host.Outcome State Fault Refusal

/-- Reset: the construction of an instance (70_reset_and_hazards.md R185) with the values of 10_state.md R53. `hostMode`
is the value of the mode flag, the host's (R53). The fields the spec does not name are empty (log entries 9, 12). -/
def State.construct (cfg : Config) (hostMode : Mode) : State :=
  { cfg := cfg
    inputs := []
    cb := []
    len := 0
    esc := false
    txdelay := cfg.txdelayReset
    mode := hostMode
    returnInRead := false
    out := { mem := [], olen := 0, cap := 0 }
    events := []
    conds := []
    routed := [] }

/-- The machine right after reset. DESIGN CHOICE (log entries 2, 3, 4): the reference configuration, and the host's mode
flag at CLI, so that the block is fed only after the host has set KISS (R189). -/
def State.reset : State := State.construct Config.reference .cli

end Sys2Proof.Machine
end

