-- ==== Sys2Proof/Machine/Ops.lean ====
section
/-! DEFINITION. The shared operations: reads and writes of a byte store, the writes of each state element, the event and
condition history, and the instance check. The block takes no exception and has no return from one (60_exceptions.md
R158, R173, R174): the whole of what an abnormal input does is `record` and the state change of its rule. -/

namespace Sys2Proof.Machine

/-- `MemRead(M, i, 1)` (00_scope.md R24); no value where nothing has been written. -/
def Memory.read : Memory → Nat → Option Byte
  | [], _ => none
  | (j, v) :: rest, i => if j = i then some v else Memory.read rest i

/-- `MemWrite(M, i, 1, v)` (R24), keeping the indices strictly rising. -/
def Memory.write : Memory → Nat → Byte → Memory
  | [], i, v => [(i, v)]
  | (j, w) :: rest, i, v =>
    if i < j then (i, v) :: (j, w) :: rest
    else if i = j then (i, v) :: rest
    else (j, w) :: Memory.write rest i v

/-- The byte store that holds `bs` at the indices from `i` on and nothing else. -/
def Memory.ofBytes : Nat → List Byte → Memory
  | _, [] => []
  | i, b :: rest => (i, b) :: Memory.ofBytes (i + 1) rest

/-- The canonical form of a byte store: indices strictly rising. An unlisted index has no value, so every listed entry
differs from it. -/
abbrev Memory.wf (m : Memory) : Prop := m.Pairwise (fun c d => c.1 < d.1)

/-- The bytes at indices `0..n-1`, if each has a value. -/
def Memory.bytesBelow (m : Memory) : Nat → Option (List Byte)
  | 0 => some []
  | n + 1 =>
    match Memory.bytesBelow m n, Memory.read m n with
    | some bs, some b => some (bs ++ [b])
    | _, _ => none

/-- A model gives no meaning to an instance whose configuration R184 (60_exceptions.md) leaves out. -/
def onInstance (s : State) (r : Result) : Result :=
  if s.cfg.legal then r else .refused .illegalConfiguration

/-- `r`, and from its next state `f`. -/
def andThen (r : Result) (f : State → Result) : Result :=
  match r with
  | .next s => f s
  | .fault e => .fault e
  | .refused e => .refused e

/-- `emit E` (00_scope.md R24): append an event to the history (10_state.md R48). -/
def emit (e : Event) (s : State) : State := { s with events := s.events ++ [e] }

/-- `cond K` (R24): record a diagnostic condition, with no other effect. -/
def record (k : Condition) (s : State) : State := { s with conds := s.conds ++ [k] }

/-- Add a routed buffer to the diagnostic trace (41_deframer.md R129). -/
def logRouted (cb : List Byte) (s : State) : State := { s with routed := s.routed ++ [cb] }

/-- `len <- n`. -/
def setLen (n : Nat) (s : State) : State := { s with len := n }

/-- `txdelay <- v` (10_state.md R34). -/
def setTxdelay (v : Word32) (s : State) : State := { s with txdelay := v }

/-- Put the result of an external encode request in the requester's buffer (10_state.md R45). -/
def setOut (o : OutBuf) (s : State) : State := { s with out := o }

/-- The caller of an encode request supplies its buffer, of capacity `cap` (20_memory.md R57): an index `>= cap` is no
storage of it. -/
def supplyBuffer (ob : List Byte) (cap : Nat) (s : State) : State :=
  setOut { mem := Memory.ofBytes 0 (ob.take cap), olen := 0, cap := cap } s

/-- The first two statements of APPEND (41_deframer.md R119): `MemWrite(CB, len, 1, v); len <- len + 1`. -/
def storeCb (v : Byte) (s : State) : State :=
  { s with cb := Memory.write s.cb s.len v, len := s.len + 1 }

/-- The command buffer `[CB[0], ..., CB[len-1]]` as one snapshot (20_memory.md R67, R75). -/
def commandBuffer (s : State) : Option (List Byte) := Memory.bytesBelow s.cb s.len

/-- A router command, run on the command buffer held in the state. -/
def onCommand (s : State) (f : List Byte → State → State) : Result :=
  onInstance s
    (match commandBuffer s with
    | none => .fault .cbUnwritten
    | some cb => .next (f cb s))

/-- The TX output stream: the bytes of the TxWrite events in event order (20_memory.md R59). -/
def txStream (s : State) : List Byte :=
  s.events.flatMap (fun e =>
    match e with
    | .txWrite bytes => bytes
    | .submit _ _ _ => []
    | .setModeCli => [])

end Sys2Proof.Machine
end

