-- ==== Sys2Proof/Machine/Flags.lean ====
section
/-! DEFINITION. The one status flag `esc` (10_state.md R40), the mode flag `MODE` (R36, R49), and the numbers of the
conditions (60_exceptions.md R159). -/

namespace Sys2Proof.Machine

/-- `esc <- v` (10_state.md R33). -/
def setEsc (v : Bool) (s : State) : State := { s with esc := v }

/-- `MODE <- m`. -/
def setMode (m : Mode) (s : State) : State := { s with mode := m }

/-- Note that a Return was performed in the transport read in progress (log entry 9). -/
def markReturn (s : State) : State := { s with returnInRead := true }

/-- `emit SetModeCLI`, which writes `MODE <- CLI` (R49). -/
def emitSetModeCli (s : State) : State := markReturn (setMode .cli (emit .setModeCli s))

/-- The input gate of 10_state.md R44: open in KISS mode, and, with `P_GATE_AFTER_RETURN = CONTINUE`, for the rest of the
transport read that held a Return. -/
def gateOpen (s : State) : Bool :=
  decide (s.mode = .kiss) || (decide (s.cfg.gateAfterReturn = .continueRead) && s.returnInRead)

/-- The numbers of the conditions (60_exceptions.md R159). -/
def conditionCode : Condition → Nat
  | .doubleEsc => 1
  | .unknownEsc => 2
  | .overflowTrunc => 3
  | .unaddressed => 4
  | .unknownVendor => 5
  | .encTrunc => 6
  | .undefCmd => 7
  | .escAtDelim => 8

/-- The framing conditions, codes 1, 2, 3 and 8 (R172). -/
def isFraming (k : Condition) : Bool :=
  decide (conditionCode k = 1) || decide (conditionCode k = 2) || decide (conditionCode k = 3) ||
    decide (conditionCode k = 8)

end Sys2Proof.Machine
end

