-- ==== Sys2Proof/Machine/Operands.lean ====
section
/-! DEFINITION. The operand forms: the data of a command, the TxDelay text, the header port of an encode request, and the
stuffed forms of a payload. -/

namespace Sys2Proof.Machine

/-- `data = cb[1..n-1]` (42_router.md R132, 30_encoding.md R88). -/
def commandData (cb : List Byte) : List Byte := cb.drop 1

/-- An ASCII decimal digit, 0x30 to 0x39 (42_router.md R138). -/
def isDigit (b : Byte) : Bool := decide (0x30#8 ≤ b) && decide (b ≤ 0x39#8)

/-- The value of an ASCII digit, `d[i] - 0x30` (R138). -/
def digitValue (b : Byte) : Word32 := (b - 0x30#8).setWidth 32

/-- The loop of R138: accumulate leading digits modulo 2^32, stop at the first other byte. -/
def parseDigits (v : Word32) : List Byte → Word32
  | [] => v
  | b :: rest => if isDigit b then parseDigits (v * 10#32 + digitValue b) rest else v

/-- `TXDELAY_PARSE` of the instance (00_scope.md R16): the default of 42_router.md R138, or a free function. -/
def txdelayParse (c : Config) (d : List Byte) : Word32 :=
  match c.txdelayParse with
  | .standard => parseDigits 0#32 d
  | .other k => Config.otherParse k d

/-- The port of the header of an encode request (40_encoder.md R100): the override, or `MY_PORT`. -/
def portOf (c : Config) (portSel : Option Nibble) : Nibble := portSel.getD c.myPort

/-- The stuffed form of one payload byte (30_encoding.md R77). -/
def stuffByte (b : Byte) : List Byte :=
  if b = delimByte then [escByte, tdelimByte]
  else if b = escByte then [escByte, tescByte]
  else [b]

/-- `stuff(P)` (30_encoding.md R97). -/
def stuff (p : List Byte) : List Byte := p.flatMap stuffByte

/-- `FRAME(port, cmd, P)` (30_encoding.md R97). -/
def frame (port cmd : Nibble) (p : List Byte) : List Byte :=
  [delimByte, headerByte port cmd] ++ stuff p ++ [delimByte]

/-- The number of payload bytes equal to 0xC0 or 0xDB (40_encoder.md R109). -/
def escapedCount (p : List Byte) : Nat := p.countP (fun b => decide (b = delimByte) || decide (b = escByte))

end Sys2Proof.Machine
end

