-- ==== Sys2Proof/Machine/Encoder.lean ====
section
/-! DEFINITION. The Frame Encoder (40_encoder.md): ENCODE, ENC_STUFF_DELIM, ENC_STUFF_ESC, ENC_LITERAL. The encoder is a
function of its operands, `MY_PORT` and the output buffer (R98). -/

namespace Sys2Proof.Machine

/-- `MemWrite(OB, o, 1, b); o <- o + 1`. -/
def putByte (b : Byte) (o : OutBuf) : OutBuf :=
  { o with mem := Memory.write o.mem o.olen b, olen := o.olen + 1 }

/-- The bytes written, `OB[0..olen-1]` (R107). -/
def OutBuf.bytes (o : OutBuf) : List Byte := (Memory.bytesBelow o.mem o.olen).getD []

/-- The check of R101: a payload byte is consumed only if `C - o - 1 >= 2`. -/
def hasRoom (o : OutBuf) : Bool := decide (2 ≤ o.cap - o.olen - 1)

/-- The writes of ENC_STUFF_DELIM (R103). -/
def stuffDelim (o : OutBuf) : OutBuf := putByte tdelimByte (putByte escByte o)

/-- The writes of ENC_STUFF_ESC (R104). -/
def stuffEsc (o : OutBuf) : OutBuf := putByte tescByte (putByte escByte o)

/-- The write of ENC_LITERAL (R105). -/
def putLiteral (b : Byte) (o : OutBuf) : OutBuf := putByte b o

/-- The three-way choice of R99 for one payload byte. -/
def putPayloadByte (b : Byte) (o : OutBuf) : OutBuf :=
  if b = delimByte then stuffDelim o
  else if b = escByte then stuffEsc o
  else putLiteral b o

/-- The payload loop of R99; the Boolean says that the loop was left by the capacity check (ENC_TRUNC). -/
def putPayload : List Byte → OutBuf → OutBuf × Bool
  | [], o => (o, false)
  | b :: rest, o => if hasRoom o then putPayload rest (putPayloadByte b o) else (o, true)

/-- `encode(cmd, port_sel, P, C)` into the buffer `mem` (R99, R102); the Boolean is the condition ENC_TRUNC. -/
def runEncode (c : Config) (cmd : Nibble) (portSel : Option Nibble) (payload : List Byte) (cap : Nat)
    (mem : Memory) : OutBuf × Bool :=
  let o : OutBuf := { mem := mem, olen := 0, cap := cap }
  if cap < 3 then (o, false)
  else
    let body := putPayload payload (putByte (headerByte (portOf c portSel) cmd) (putByte delimByte o))
    (putByte delimByte body.1, body.2)

/-- Record ENC_TRUNC if the capacity check failed (60_exceptions.md R165). -/
def recordTrunc (trunc : Bool) (s : State) : State := if trunc then record .encTrunc s else s

/-- One payload byte in the requester's buffer: the check of R101, then the writes of its class; where the check fails
nothing is written (log entry 13). -/
def consumePayload (s : State) (write : OutBuf → OutBuf) : State :=
  if hasRoom s.out then setOut (write s.out) s else record .encTrunc s

/-- ENCODE, requested from outside (R99, 10_state.md R45), into the caller's buffer, `State.out.mem`. -/
def execEncodeReq (cmd : Nibble) (portSel : Option Nibble) (payload : List Byte) (cap : Nat) (s : State) : Result :=
  onInstance s
    (let r := runEncode s.cfg cmd portSel payload cap s.out.mem
     .next (recordTrunc r.2 (setOut r.1 s)))

/-- ENC_STUFF_DELIM (R103). -/
def execEncStuffDelim (s : State) : Result := onInstance s (.next (consumePayload s stuffDelim))

/-- ENC_STUFF_ESC (R104). -/
def execEncStuffEsc (s : State) : Result := onInstance s (.next (consumePayload s stuffEsc))

/-- ENC_LITERAL (R105). -/
def execEncLiteral (b : Byte) (s : State) : Result := onInstance s (.next (consumePayload s (putLiteral b)))

end Sys2Proof.Machine
end

