-- ==== Sys2Proof/Machine/Vendor.lean ====
section
/-! DEFINITION. The Vendor Sub-Router (43_vendor.md): GETRADIOSTATS, SIGNALREPORTING, VENDOR_UNKNOWN. -/

namespace Sys2Proof.Machine

/-- GETRADIOSTATS (R153): no state written, no event. -/
def getRadioStatsEffect (s : State) : State := s

/-- SIGNALREPORTING (R154): no state written, no event. -/
def signalReportingEffect (s : State) : State := s

/-- The fallback reply (R155): encode(Vendor, none, [SENTINEL], REPLY_CAP) into a buffer of the Sub-Router's own. -/
def vendorReply (c : Config) : OutBuf × Bool :=
  runEncode c vendorCode none [sentinelByte] c.replyCap []

/-- VENDOR_UNKNOWN (R155). -/
def vendorUnknownEffect (s : State) : State :=
  let r := vendorReply s.cfg
  emit (.txWrite r.1.bytes) (recordTrunc r.2 (record .unknownVendor s))

/-- `routeVendor(vd)` (R151): the first byte is the sub-command (R152). It is called only with `|vd| >= 1`. -/
def routeVendor (vd : List Byte) (s : State) : State :=
  match vd with
  | [] => s
  | sub :: _ =>
    if sub = getRadioStatsByte then getRadioStatsEffect s
    else if sub = signalReportingByte then signalReportingEffect s
    else vendorUnknownEffect s

/-- GETRADIOSTATS (R153). -/
def execGetRadioStats (s : State) : Result := onInstance s (.next (getRadioStatsEffect s))

/-- SIGNALREPORTING (R154). -/
def execSignalReporting (s : State) : Result := onInstance s (.next (signalReportingEffect s))

/-- VENDOR_UNKNOWN (R155): the sub-command value is not used. -/
def execVendorUnknown (_sub : Byte) (s : State) : Result := onInstance s (.next (vendorUnknownEffect s))

end Sys2Proof.Machine
end

