-- ==== Sys2Proof/Machine/Router.lean ====
section
/-! DEFINITION. The Command Router (42_router.md): one effect per header row, the routing decision, and the rows as
operations on the command buffer held in the state. -/

namespace Sys2Proof.Machine

/-- RETURN (R134): reset the command buffer and the escape flag, emit SetModeCLI. -/
def returnEffect (s : State) : State := emitSetModeCli (setEsc false (setLen 0 s))

/-- IGNORE (R135), for a frame of another port. -/
def unaddressedEffect (s : State) : State := record .unaddressed s

/-- The same path for the global port with a command other than Return (R136). -/
def globalOtherEffect (s : State) : State := record .unaddressed s

/-- DATA (R139): submit the data with the current delay, unless the buffer is the header alone. -/
def dataEffect (cb : List Byte) (s : State) : State :=
  if cb.length ≤ 1 then s
  else emit (.submit (commandData cb) s.cfg.dataPriority s.txdelay) s

/-- TXDELAY (R137): `txdelay <- (v * 10) mod 2^32` if there is data. -/
def txDelayEffect (cb : List Byte) (s : State) : State :=
  if 1 ≤ cb.length - 1 then setTxdelay (txdelayParse s.cfg (commandData cb) * 10#32) s
  else s

/-- PERSIST (R140): no state written, no event. -/
def persistEffect (s : State) : State := s

/-- SLOTTIME (R141): no state written, no event. -/
def slotTimeEffect (s : State) : State := s

/-- TXTAIL (R142): no state written, no event. -/
def txTailEffect (s : State) : State := s

/-- FULLDUPLEX (R143): no state written, no event. -/
def fullDuplexEffect (s : State) : State := s

/-- VENDOR (R144): hand all data, sub-command first, to the Vendor Sub-Router, unless there is none. -/
def vendorEffect (cb : List Byte) (s : State) : State :=
  if cb.length ≤ 1 then s
  else routeVendor (commandData cb) s

/-- UNDEFINED (R145, R146): the condition UNDEF_CMD and nothing else. -/
def undefinedEffect (s : State) : State := record .undefCmd s

/-- CMD_UNDEF_7 (R145). -/
def cmdUndef7Effect (s : State) : State := undefinedEffect s

/-- CMD_UNDEF_8 (R145). -/
def cmdUndef8Effect (s : State) : State := undefinedEffect s

/-- CMD_UNDEF_9 (R145). -/
def cmdUndef9Effect (s : State) : State := undefinedEffect s

/-- CMD_UNDEF_10 (R145). -/
def cmdUndef10Effect (s : State) : State := undefinedEffect s

/-- CMD_UNDEF_11 (R145). -/
def cmdUndef11Effect (s : State) : State := undefinedEffect s

/-- CMD_UNDEF_12 (R145). -/
def cmdUndef12Effect (s : State) : State := undefinedEffect s

/-- CMD_UNDEF_13 (R145). -/
def cmdUndef13Effect (s : State) : State := undefinedEffect s

/-- CMD_UNDEF_14 (R145). -/
def cmdUndef14Effect (s : State) : State := undefinedEffect s

/-- CMD_RETURN_LOCAL (R146). -/
def cmdReturnLocalEffect (s : State) : State := undefinedEffect s

/-- `case cmd of` in R133, for a frame of `MY_PORT`. -/
def routeOwn (cmd : Nibble) (cb : List Byte) (s : State) : State :=
  match cmd.toNat with
  | 0 => dataEffect cb s
  | 1 => txDelayEffect cb s
  | 2 => persistEffect s
  | 3 => slotTimeEffect s
  | 4 => txTailEffect s
  | 5 => fullDuplexEffect s
  | 6 => vendorEffect cb s
  | 7 => cmdUndef7Effect s
  | 8 => cmdUndef8Effect s
  | 9 => cmdUndef9Effect s
  | 10 => cmdUndef10Effect s
  | 11 => cmdUndef11Effect s
  | 12 => cmdUndef12Effect s
  | 13 => cmdUndef13Effect s
  | 14 => cmdUndef14Effect s
  | _ => cmdReturnLocalEffect s

/-- `route(cb)` (R132, R133). It is called only with a non-empty buffer (41_deframer.md R128). -/
def route (cb : List Byte) (s : State) : State :=
  match cb with
  | [] => s
  | hdr :: _ =>
    let port := headerPort hdr
    let cmd := headerCmd hdr
    if port = globalPort ∧ cmd = returnCode then returnEffect s
    else if port ≠ s.cfg.myPort then
      if port = globalPort then globalOtherEffect s else unaddressedEffect s
    else routeOwn cmd cb s

/-- The port filter of R133 before an own-port row: a header for another port is ignored (R135). -/
def addressed (port : Nibble) (f : State → State) (s : State) : State :=
  if port = s.cfg.myPort then f s else unaddressedEffect s

/-- RETURN (R134): it acts whatever `MY_PORT` is. -/
def execReturnCli (s : State) : Result := onInstance s (.next (returnEffect s))

/-- UNADDRESSED (R135). -/
def execUnaddressed (_port _cmd : Nibble) (s : State) : Result := onInstance s (.next (unaddressedEffect s))

/-- GLOBAL_OTHER (R136). -/
def execGlobalOther (_cmd : Nibble) (s : State) : Result := onInstance s (.next (globalOtherEffect s))

/-- DATA (R139), on the command buffer in the state. -/
def execData (port : Nibble) (s : State) : Result := onCommand s (fun cb => addressed port (dataEffect cb))

/-- TXDELAY (R137), on the command buffer in the state. -/
def execTxDelay (port : Nibble) (s : State) : Result := onCommand s (fun cb => addressed port (txDelayEffect cb))

/-- PERSIST (R140). -/
def execPersist (port : Nibble) (s : State) : Result := onInstance s (.next (addressed port persistEffect s))

/-- SLOTTIME (R141). -/
def execSlotTime (port : Nibble) (s : State) : Result := onInstance s (.next (addressed port slotTimeEffect s))

/-- TXTAIL (R142). -/
def execTxTail (port : Nibble) (s : State) : Result := onInstance s (.next (addressed port txTailEffect s))

/-- FULLDUPLEX (R143). -/
def execFullDuplex (port : Nibble) (s : State) : Result := onInstance s (.next (addressed port fullDuplexEffect s))

/-- VENDOR (R144), on the command buffer in the state. -/
def execVendor (port : Nibble) (s : State) : Result := onCommand s (fun cb => addressed port (vendorEffect cb))

/-- CMD_UNDEF_7 (R145). -/
def execCmdUndef7 (port : Nibble) (s : State) : Result := onInstance s (.next (addressed port cmdUndef7Effect s))

/-- CMD_UNDEF_8 (R145). -/
def execCmdUndef8 (port : Nibble) (s : State) : Result := onInstance s (.next (addressed port cmdUndef8Effect s))

/-- CMD_UNDEF_9 (R145). -/
def execCmdUndef9 (port : Nibble) (s : State) : Result := onInstance s (.next (addressed port cmdUndef9Effect s))

/-- CMD_UNDEF_10 (R145). -/
def execCmdUndef10 (port : Nibble) (s : State) : Result := onInstance s (.next (addressed port cmdUndef10Effect s))

/-- CMD_UNDEF_11 (R145). -/
def execCmdUndef11 (port : Nibble) (s : State) : Result := onInstance s (.next (addressed port cmdUndef11Effect s))

/-- CMD_UNDEF_12 (R145). -/
def execCmdUndef12 (port : Nibble) (s : State) : Result := onInstance s (.next (addressed port cmdUndef12Effect s))

/-- CMD_UNDEF_13 (R145). -/
def execCmdUndef13 (port : Nibble) (s : State) : Result := onInstance s (.next (addressed port cmdUndef13Effect s))

/-- CMD_UNDEF_14 (R145). -/
def execCmdUndef14 (port : Nibble) (s : State) : Result := onInstance s (.next (addressed port cmdUndef14Effect s))

/-- CMD_RETURN_LOCAL (R146). -/
def execCmdReturnLocal (port : Nibble) (s : State) : Result :=
  onInstance s (.next (addressed port cmdReturnLocalEffect s))

end Sys2Proof.Machine
end

