-- ==== Sys2Proof/Machine/Deframer.lean ====
section
/-! DEFINITION. The Stream De-framer (41_deframer.md): the primitives APPEND and DISPATCH, and the five received-byte
classes. -/

namespace Sys2Proof.Machine

/-- DISPATCH (R120): route the command buffer, then `len <- 0; esc <- false`. -/
def dispatch (s : State) : Result :=
  match commandBuffer s with
  | none => .fault .cbUnwritten
  | some cb => .next (setEsc false (setLen 0 (route cb (logRouted cb s))))

/-- APPEND(v) (R119), with the forced dispatch of R121. An index `>= N` is no storage of `CB` (10_state.md R31). -/
def append (v : Byte) (s : State) : Result :=
  if s.len < s.cfg.n then
    if (storeCb v s).len = s.cfg.n - 1 then dispatch (record .overflowTrunc (storeCb v s))
    else .next (storeCb v s)
  else .fault .cbNoSuchIndex

/-- FEED_ESC (R114). -/
def feedEscEffect (s : State) : State :=
  if s.esc then record .doubleEsc (setEsc false (setLen 0 s)) else setEsc true s

/-- Record ESC_AT_DELIM if an escape is pending (60_exceptions.md R167). -/
def recordEscAtDelim (s : State) : State := if s.esc then record .escAtDelim s else s

/-- FEED_DELIM (R115). -/
def feedDelimEffect (s : State) : Result :=
  if 0 < s.len then dispatch (setEsc false (recordEscAtDelim s))
  else .next (if s.cfg.emptyDelimClearsEsc then setEsc false s else s)

/-- The rule that FEED_TESC and FEED_TDELIM share (R116, R117): append `decoded` after an escape, else `literal`. -/
def feedTransposed (decoded literal : Byte) (s : State) : Result :=
  if s.esc then append decoded (setEsc false s) else append literal s

/-- FEED_OTHER (R118): drop an unknown escaped byte, else append. -/
def feedOtherEffect (b : Byte) (s : State) : Result :=
  if s.esc then .next (record .unknownEsc (setEsc false s)) else append b s

/-- FEED_ESC (R114). -/
def execFeedEsc (s : State) : Result := onInstance s (.next (feedEscEffect s))

/-- FEED_DELIM (R115). -/
def execFeedDelim (s : State) : Result := onInstance s (feedDelimEffect s)

/-- FEED_TESC (R116). -/
def execFeedTesc (s : State) : Result := onInstance s (feedTransposed escByte tescByte s)

/-- FEED_TDELIM (R117). -/
def execFeedTdelim (s : State) : Result := onInstance s (feedTransposed delimByte tdelimByte s)

/-- FEED_OTHER (R118). -/
def execFeedOther (b : Byte) (s : State) : Result := onInstance s (feedOtherEffect b s)

end Sys2Proof.Machine
end

