-- ==== Sys2Proof/Machine/Dispatch.lean ====
section
/-! DEFINITION. The dispatcher of operations: one arm per row of spec/opcode_table.json. -/

namespace Sys2Proof.Machine

def exec (i : Instr) (s : State) : Host.Outcome State Fault Refusal :=
  match i with
  | .feedEsc => Sys2Proof.Machine.execFeedEsc s
  | .feedDelim => Sys2Proof.Machine.execFeedDelim s
  | .feedTesc => Sys2Proof.Machine.execFeedTesc s
  | .feedTdelim => Sys2Proof.Machine.execFeedTdelim s
  | .feedOther b => Sys2Proof.Machine.execFeedOther b s
  | .encodeReq cmd portSel payload cap => Sys2Proof.Machine.execEncodeReq cmd portSel payload cap s
  | .encStuffDelim => Sys2Proof.Machine.execEncStuffDelim s
  | .encStuffEsc => Sys2Proof.Machine.execEncStuffEsc s
  | .encLiteral b => Sys2Proof.Machine.execEncLiteral b s
  | .returnCli => Sys2Proof.Machine.execReturnCli s
  | .unaddressed port cmd => Sys2Proof.Machine.execUnaddressed port cmd s
  | .globalOther cmd => Sys2Proof.Machine.execGlobalOther cmd s
  | .data port => Sys2Proof.Machine.execData port s
  | .txDelay port => Sys2Proof.Machine.execTxDelay port s
  | .persist port => Sys2Proof.Machine.execPersist port s
  | .slotTime port => Sys2Proof.Machine.execSlotTime port s
  | .txTail port => Sys2Proof.Machine.execTxTail port s
  | .fullDuplex port => Sys2Proof.Machine.execFullDuplex port s
  | .vendor port => Sys2Proof.Machine.execVendor port s
  | .cmdUndef7 port => Sys2Proof.Machine.execCmdUndef7 port s
  | .cmdUndef8 port => Sys2Proof.Machine.execCmdUndef8 port s
  | .cmdUndef9 port => Sys2Proof.Machine.execCmdUndef9 port s
  | .cmdUndef10 port => Sys2Proof.Machine.execCmdUndef10 port s
  | .cmdUndef11 port => Sys2Proof.Machine.execCmdUndef11 port s
  | .cmdUndef12 port => Sys2Proof.Machine.execCmdUndef12 port s
  | .cmdUndef13 port => Sys2Proof.Machine.execCmdUndef13 port s
  | .cmdUndef14 port => Sys2Proof.Machine.execCmdUndef14 port s
  | .cmdReturnLocal port => Sys2Proof.Machine.execCmdReturnLocal port s
  | .getRadioStats => Sys2Proof.Machine.execGetRadioStats s
  | .signalReporting => Sys2Proof.Machine.execSignalReporting s
  | .vendorUnknown sub => Sys2Proof.Machine.execVendorUnknown sub s

end Sys2Proof.Machine
end

