-- ==== Sys2Proof/Machine/Input.lean ====
section
/-! DEFINITION. How the block is driven (10_state.md R43 to R45, R49): one step serves one input; a run of received bytes
(41_deframer.md R126); and the placing of one operation where the next step runs it. -/

namespace Sys2Proof.Machine

/-- `feed(b)` (41_deframer.md R113): the operation of the byte's class. -/
def feed (b : Byte) (s : State) : Result := exec (decodeRx b) s

/-- `feed` over a byte sequence, in order, with no gate. -/
def feedAll : List Byte → State → Result
  | [], s => .next s
  | b :: rest, s => andThen (feed b s) (feedAll rest)

/-- Take the first input from the queue. The first byte of a transport read ends the read before it (log entry 9). -/
def takeInput (firstOfRead : Bool) (rest : List Input) (s : State) : State :=
  { s with inputs := rest, returnInRead := !firstOfRead && s.returnInRead }

/-- A received byte: fed if the gate is open, else the host's (R44, log entry 10). -/
def offerByte (b : Byte) (s : State) : Result := if gateOpen s then feed b s else .next s

/-- A transport read begins: no Return has been performed in it (log entry 9). -/
def beginRead (s : State) : State := { s with returnInRead := false }

/-- The bytes that remain of the transport read in progress: `feed` in order, subject before each byte to the input gate
of 10_state.md R44. -/
def drainRest : List Byte → State → Result
  | [], s => .next s
  | b :: rest, s => andThen (offerByte b s) (drainRest rest)

/-- `drain(bs)` (R126). DESIGN CHOICE (log entry 9): the spec does not say whether a call of `drain` begins a transport
read (R44, CONTINUE); here each call on at least one byte is one whole read, so a Return of an earlier call opens no
gate in it. -/
def drain (bs : List Byte) (s : State) : Result :=
  match bs with
  | [] => .next s
  | b :: rest => drainRest (b :: rest) (beginRead s)

/-- One step (00_scope.md R3): serve the first input. With none, the block takes no step and its state is unchanged
(10_state.md R43, log entry 11). An encode request is served in either mode (60_exceptions.md R176), in the buffer its
caller supplied (20_memory.md R57). -/
def serveInput (s : State) : Result :=
  onInstance s
    (match s.inputs with
    | [] => .next s
    | .byte b firstOfRead :: rest => offerByte b (takeInput firstOfRead rest s)
    | .encode cmd portSel payload cap ob :: rest =>
      exec (.encodeReq cmd portSel payload cap) (supplyBuffer ob cap (takeInput false rest s))
    | .hostMode m :: rest => .next (setMode m (takeInput false rest s)))

/-- The bytes of one transport read, as inputs. -/
def readOf : List Byte → List Input
  | [] => []
  | b :: rest => .byte b true :: rest.map (fun c => .byte c false)

/-- Offer one received byte first, in KISS mode. -/
def placeByte (b : Byte) (s : State) : State :=
  { s with inputs := .byte b true :: s.inputs, mode := .kiss }

/-- Hold `cb` as the command buffer and offer the delimiter that completes it. -/
def placeCommand (cb : List Byte) (s : State) : State :=
  placeByte delimByte (cb.foldl (fun t b => storeCb b t) (setLen 0 s))

/-- Place an operation so that the very next step runs it, by its format (log entry 16): a received byte is offered; a
header is the command buffer of a frame that the offered delimiter completes; a vendor sub-command stands after the
Vendor header of the instance; a payload byte is the payload of an encode request; an encode request is offered. -/
def placeInstr (i : Instr) (s : State) : State :=
  match formatOf i with
  | .rxByte => (encode i).foldr placeByte s
  | .header8 => placeCommand (encode i) s
  | .vendorSubcmd8 => placeCommand (headerByte s.cfg.myPort vendorCode :: encode i) s
  | .encPayloadByte => { s with inputs := .encode 0#4 none (encode i) 5 [] :: s.inputs }
  | .encRequest =>
    match i with
    | .encodeReq cmd portSel payload cap => { s with inputs := .encode cmd portSel payload cap [] :: s.inputs }
    | _ => s

/-- Place the operation of a word of spec/opcode_table.json; a word that is none leaves the state as it is. -/
def placeWord (nbits w : Nat) (s : State) : State :=
  match decodeTableWord nbits w with
  | none => s
  | some i => placeInstr i s

end Sys2Proof.Machine
end

