-- ==== Sys2Proof/Machine/Step.lean ====
section
/-! DEFINITION. The step of the machine, and a table word stored where the next step runs it. -/

namespace Sys2Proof.Machine

/-- One atomic step (00_scope.md R3, 20_memory.md R68). -/
def step (s : State) : Host.Outcome State Fault Refusal := serveInput s

/-- `s` with one operation placed where the next step runs it (log entry 16). -/
def State.withFetchWord (s : State) (nbits w : Nat) : State := placeWord nbits w s

end Sys2Proof.Machine
end

