-- ==== Sys2Proof/Safety.lean ====
section
/-! DEFINITION. The invariant of the block between any two steps (10_state.md R52, 41_deframer.md R123), in the terms the
claims use. -/

namespace Sys2Proof.Machine

/-- What holds between any two steps, from reset on. -/
structure Inv (s : State) : Prop where
  /-- The configuration has a meaning (60_exceptions.md R184). -/
  legal : s.cfg.legal = true
  /-- `0 <= len <= N - 2` (R52). -/
  lenBound : s.len + 2 ≤ s.cfg.n
  /-- The bytes of the frame in progress, `CB[0..len-1]`, are held (41_deframer.md R123). -/
  held : ∃ cb, commandBuffer s = some cb
  /-- `CB` is in canonical form. -/
  cbWf : Memory.wf s.cb
  /-- Index `N - 1` and what is above it are never written (10_state.md R31, 20_memory.md R70). -/
  cbBelow : ∀ i, s.cfg.n ≤ i + 1 → Memory.read s.cb i = none
  /-- The requester's buffer is in canonical form. -/
  outWf : Memory.wf s.out.mem
  /-- `olen <= C` (10_state.md R45, 40_encoder.md R101). -/
  outBound : s.out.olen ≤ s.out.cap
  /-- The requester's buffer has `C` bytes of storage, at the indices `0..C-1` (20_memory.md R55, R57). -/
  outBelow : ∀ i, s.out.cap ≤ i → Memory.read s.out.mem i = none

end Sys2Proof.Machine
end

