-- ==== Sys2Proof/Certificates/Slice0/Obligations.lean ====
section
/-! DEFINITION. The statements about the model, from the numbered rules of spec/. -/

open Sys2Proof Sys2Proof.Machine

/-- Words written out from the table decode to their rows. Derived from 30_encoding.md R76, 30_encoding.md R78,
30_encoding.md R81, 30_encoding.md R83, 30_encoding.md R86, 40_encoder.md R103, 40_encoder.md R104,
40_encoder.md R105, 42_router.md R136. The choice of the model in it: log entry 18. -/
def Obligations.TableWordsDecode : Prop :=
  decodeRx 0b11011011#8 = .feedEsc ∧ decodeRx 0b11000000#8 = .feedDelim ∧ decodeRx 0b11011101#8 = .feedTesc ∧
  decodeRx 0b11011100#8 = .feedTdelim ∧ decodeRx 0b01000001#8 = .feedOther 0x41#8 ∧
  decodePayload 0b11000000#8 = .encStuffDelim ∧ decodePayload 0b11011011#8 = .encStuffEsc ∧
  decodePayload 0b11011101#8 = .encLiteral 0xDD#8 ∧
  decodeHeader 0#4 0b11111111#8 = .returnCli ∧ decodeHeader 0#4 0b11110000#8 = .globalOther 0#4 ∧
  decodeHeader 0#4 0b00110000#8 = .unaddressed 3#4 0#4 ∧ decodeHeader 3#4 0b00110000#8 = .data 3#4 ∧
  decodeHeader 0#4 0b00000001#8 = .txDelay 0#4 ∧ decodeHeader 0#4 0b00001110#8 = .cmdUndef14 0#4 ∧
  decodeHeader 0#4 0b00001111#8 = .cmdReturnLocal 0#4 ∧
  decodeVendor 0b00000001#8 = .getRadioStats ∧ decodeVendor 0b10000000#8 = .signalReporting ∧
  decodeVendor 0b01111111#8 = .vendorUnknown 0x7F#8

/-- Each of the four byte decoders picks the row that the tables and their precedence give. Derived from
30_encoding.md R76, 30_encoding.md R81, 30_encoding.md R83, 30_encoding.md R86, 40_encoder.md R103,
40_encoder.md R104, 40_encoder.md R105, 42_router.md R136. The choice of the model in it: log entry 18. -/
def Obligations.DecodersFollowThePrecedence : Prop :=
  (∀ b : Byte, decodeRx b =
    if b = 0xDB#8 then .feedEsc else if b = 0xC0#8 then .feedDelim else if b = 0xDD#8 then .feedTesc
    else if b = 0xDC#8 then .feedTdelim else .feedOther b) ∧
  (∀ b : Byte, decodePayload b =
    if b = 0xC0#8 then .encStuffDelim else if b = 0xDB#8 then .encStuffEsc else .encLiteral b) ∧
  (∀ b : Byte, decodeVendor b =
    if b = 0x01#8 then .getRadioStats else if b = 0x80#8 then .signalReporting else .vendorUnknown b) ∧
  (∀ myPort : Nibble, decodeHeader myPort 0xFF#8 = .returnCli) ∧
  (∀ (myPort : Nibble) (h : Byte), myPort ≠ 15#4 → h ≠ 0xFF#8 →
    (headerPort h ≠ myPort → headerPort h = 15#4 → decodeHeader myPort h = .globalOther (headerCmd h)) ∧
    (headerPort h ≠ myPort → headerPort h ≠ 15#4 →
      decodeHeader myPort h = .unaddressed (headerPort h) (headerCmd h)) ∧
    (headerPort h = myPort →
      (headerCmd h = 0#4 → decodeHeader myPort h = .data myPort) ∧
      (headerCmd h = 1#4 → decodeHeader myPort h = .txDelay myPort) ∧
      (headerCmd h = 2#4 → decodeHeader myPort h = .persist myPort) ∧
      (headerCmd h = 3#4 → decodeHeader myPort h = .slotTime myPort) ∧
      (headerCmd h = 4#4 → decodeHeader myPort h = .txTail myPort) ∧
      (headerCmd h = 5#4 → decodeHeader myPort h = .fullDuplex myPort) ∧
      (headerCmd h = 6#4 → decodeHeader myPort h = .vendor myPort) ∧
      (headerCmd h = 7#4 → decodeHeader myPort h = .cmdUndef7 myPort) ∧
      (headerCmd h = 8#4 → decodeHeader myPort h = .cmdUndef8 myPort) ∧
      (headerCmd h = 9#4 → decodeHeader myPort h = .cmdUndef9 myPort) ∧
      (headerCmd h = 10#4 → decodeHeader myPort h = .cmdUndef10 myPort) ∧
      (headerCmd h = 11#4 → decodeHeader myPort h = .cmdUndef11 myPort) ∧
      (headerCmd h = 12#4 → decodeHeader myPort h = .cmdUndef12 myPort) ∧
      (headerCmd h = 13#4 → decodeHeader myPort h = .cmdUndef13 myPort) ∧
      (headerCmd h = 14#4 → decodeHeader myPort h = .cmdUndef14 myPort) ∧
      (headerCmd h = 15#4 → decodeHeader myPort h = .cmdReturnLocal myPort)))

/-- Reset: every state element of R53 takes its value. States R53. -/
def Obligations.ResetGivesSpecValues : Prop :=
  ∀ (c : Config) (m : Mode),
    (State.construct c m).len = 0 ∧ (State.construct c m).esc = false ∧
    (∀ i, Memory.read (State.construct c m).cb i = none) ∧
    (State.construct c m).txdelay = c.txdelayReset ∧
    (State.construct c m).cfg = c ∧ (State.construct c m).cfg.myPort = c.myPort ∧
    (State.construct c m).mode = m ∧ (State.construct c m).events = []

/-- The invariant holds after construction and at State.reset. Derived from 10_state.md R52, 10_state.md R53. The
choice of the model in it: log entries 2, 3, 4. -/
def Obligations.ConstructionMeetsInv : Prop :=
  (∀ (c : Config) (m : Mode), c.legal = true → Inv (State.construct c m)) ∧ Inv State.reset

/-- A step runs the operation its received byte decodes to. Derived from 41_deframer.md R113, 10_state.md R43,
10_state.md R44. The choice of the model in it: log entry 9. -/
def Obligations.StepRunsDecodedByte : Prop :=
  ∀ (s : State) (b : Byte) (first : Bool) (rest : List Input) (i : Instr) (more : List Byte),
    s.cfg.legal = true → s.inputs = .byte b first :: rest →
    decode .rxByte s.cfg.myPort (b :: more) = .ok i more → wellFormed s.cfg.myPort i = true →
    (s.mode = .kiss ∨ (s.cfg.gateAfterReturn = .continueRead ∧ first = false ∧ s.returnInRead = true)) →
    step s = exec i { s with inputs := rest, returnInRead := !first && s.returnInRead }

/-- A byte behind a closed gate never reaches the block. Derived from 10_state.md R44, 70_reset_and_hazards.md R199.
The choice of the model in it: log entries 9, 10. -/
def Obligations.StepClosedGateLeavesBlock : Prop :=
  ∀ (s : State) (b : Byte) (first : Bool) (rest : List Input),
    s.cfg.legal = true → s.inputs = .byte b first :: rest → s.mode = .cli →
    (s.cfg.gateAfterReturn = .stop ∨ first = true ∨ s.returnInRead = false) →
    step s = .next { s with inputs := rest, returnInRead := !first && s.returnInRead }

/-- A step serves an encode request in either mode. Derived from 10_state.md R45, 60_exceptions.md R176,
20_memory.md R73, 20_memory.md R57. The choice of the model in it: log entry 12. -/
def Obligations.StepServesEncodeRequest : Prop :=
  ∀ (s : State) (cmd : Nibble) (sel : Option Nibble) (p : List Byte) (cap : Nat) (ob : List Byte) (rest : List Input),
    s.cfg.legal = true → s.inputs = .encode cmd sel p cap ob :: rest →
    step s = exec (.encodeReq cmd sel p cap)
      { s with inputs := rest, out := { mem := Memory.ofBytes 0 (ob.take cap), olen := 0, cap := cap } }

/-- A host write of the mode flag changes nothing else. Derived from 10_state.md R49, 60_exceptions.md R178. -/
def Obligations.StepHostModeWrite : Prop :=
  ∀ (s : State) (m : Mode) (rest : List Input),
    s.cfg.legal = true → s.inputs = .hostMode m :: rest →
    step s = .next { s with inputs := rest, mode := m }

/-- With no input the state is unchanged. Derived from 10_state.md R43, 60_exceptions.md R183. The choice of the
model in it: log entry 11. -/
def Obligations.IdleStepKeepsState : Prop :=
  ∀ (s : State), s.cfg.legal = true → s.inputs = [] → step s = .next s

/-- An instance outside R184 is refused by every operation and step. Derived from 60_exceptions.md R184. -/
def Obligations.IllegalInstanceRefused : Prop :=
  ∀ (s : State), (s.cfg.n < 2 ∨ s.cfg.myPort = 15#4 ∨ s.cfg.replyCap < 5) →
    (∀ i, exec i s = .refused .illegalConfiguration) ∧ step s = .refused .illegalConfiguration

/-- FEED_ESC enters the escape or aborts the frame. States R114. -/
def Obligations.FeedEscResult : Prop :=
  ∀ (s : State), s.cfg.legal = true →
    exec .feedEsc s = .next
      (if s.esc then { s with len := 0, esc := false, conds := s.conds ++ [.doubleEsc] } else { s with esc := true })

/-- FEED_DELIM: empty buffer, and dispatch of a non-empty one. States R115. -/
def Obligations.FeedDelimResult : Prop :=
  ∀ (s : State), s.cfg.legal = true →
    (s.len = 0 → exec .feedDelim s = .next (if s.cfg.emptyDelimClearsEsc then { s with esc := false } else s)) ∧
    (∀ cb, 0 < s.len → commandBuffer s = some cb →
      ∃ (h : Byte) (data : List Byte) (u : State), cb = h :: data ∧
        exec (decodeHeader s.cfg.myPort h) { s with
          esc := false, conds := s.conds ++ (if s.esc then [.escAtDelim] else []), routed := s.routed ++ [cb] } = .next u ∧
        exec .feedDelim s = .next { u with len := 0, esc := false })

/-- FEED_TESC stores 0xDB after an escape and 0xDD otherwise. States R116. -/
def Obligations.FeedTescResult : Prop :=
  ∀ (s : State), s.cfg.legal = true →
    (s.len + 2 < s.cfg.n →
      exec .feedTesc s = .next { s with
        esc := false, cb := Memory.write s.cb s.len (if s.esc then 0xDB#8 else 0xDD#8), len := s.len + 1 }) ∧
    (∀ cb, s.len + 2 = s.cfg.n → commandBuffer s = some cb →
      ∃ (h : Byte) (data : List Byte) (u : State), cb ++ [(if s.esc then 0xDB#8 else 0xDD#8)] = h :: data ∧
        exec (decodeHeader s.cfg.myPort h) { s with
          esc := false, cb := Memory.write s.cb s.len (if s.esc then 0xDB#8 else 0xDD#8), len := s.len + 1,
          conds := s.conds ++ [.overflowTrunc], routed := s.routed ++ [cb ++ [(if s.esc then 0xDB#8 else 0xDD#8)]] } = .next u ∧
        exec .feedTesc s = .next { u with len := 0, esc := false })

/-- FEED_TDELIM stores 0xC0 after an escape and 0xDC otherwise. States R117. -/
def Obligations.FeedTdelimResult : Prop :=
  ∀ (s : State), s.cfg.legal = true →
    (s.len + 2 < s.cfg.n →
      exec .feedTdelim s = .next { s with
        esc := false, cb := Memory.write s.cb s.len (if s.esc then 0xC0#8 else 0xDC#8), len := s.len + 1 }) ∧
    (∀ cb, s.len + 2 = s.cfg.n → commandBuffer s = some cb →
      ∃ (h : Byte) (data : List Byte) (u : State), cb ++ [(if s.esc then 0xC0#8 else 0xDC#8)] = h :: data ∧
        exec (decodeHeader s.cfg.myPort h) { s with
          esc := false, cb := Memory.write s.cb s.len (if s.esc then 0xC0#8 else 0xDC#8), len := s.len + 1,
          conds := s.conds ++ [.overflowTrunc], routed := s.routed ++ [cb ++ [(if s.esc then 0xC0#8 else 0xDC#8)]] } = .next u ∧
        exec .feedTdelim s = .next { u with len := 0, esc := false })

/-- FEED_OTHER drops an unknown escaped byte and stores any other. States R118. -/
def Obligations.FeedOtherResult : Prop :=
  ∀ (s : State) (b : Byte), s.cfg.legal = true →
    (s.esc = true → exec (.feedOther b) s = .next { s with esc := false, conds := s.conds ++ [.unknownEsc] }) ∧
    (s.esc = false → s.len + 2 < s.cfg.n →
      exec (.feedOther b) s = .next { s with cb := Memory.write s.cb s.len b, len := s.len + 1 }) ∧
    (∀ cb, s.esc = false → s.len + 2 = s.cfg.n → commandBuffer s = some cb →
      ∃ (h : Byte) (data : List Byte) (u : State), cb ++ [b] = h :: data ∧
        exec (decodeHeader s.cfg.myPort h) { s with
          cb := Memory.write s.cb s.len b, len := s.len + 1,
          conds := s.conds ++ [.overflowTrunc], routed := s.routed ++ [cb ++ [b]] } = .next u ∧
        exec (.feedOther b) s = .next { u with len := 0, esc := false })

/-- An append stores its byte at index len and keeps the rest. Derived from 41_deframer.md R119, 20_memory.md R62,
20_memory.md R56. -/
def Obligations.AppendedByteIsRead : Prop :=
  ∀ (s : State) (v : Byte) (cb : List Byte), s.len + 2 < s.cfg.n → commandBuffer s = some cb →
    ∃ t, append v s = .next t ∧ t.len = s.len + 1 ∧ commandBuffer t = some (cb ++ [v]) ∧
      Memory.read t.cb s.len = some v ∧ ∀ a, a ≠ s.len → Memory.read t.cb a = Memory.read s.cb a

/-- A forced dispatch routes exactly N - 1 bytes and empties the buffer. States R121. -/
def Obligations.ForcedDispatchHasNMinusOneBytes : Prop :=
  ∀ (s : State) (v : Byte) (cb : List Byte),
    s.cfg.legal = true → s.len + 2 = s.cfg.n → commandBuffer s = some cb →
    ∃ t, append v s = .next t ∧ t.routed = s.routed ++ [cb ++ [v]] ∧ (cb ++ [v]).length = s.cfg.n - 1 ∧
      t.conds.take (s.conds.length + 1) = s.conds ++ [.overflowTrunc] ∧ t.len = 0 ∧ t.esc = false

/-- ENCODE with C < 3 writes nothing and returns olen = 0. States R102. -/
def Obligations.EncodeShortCapacity : Prop :=
  ∀ (s : State) (cmd : Nibble) (sel : Option Nibble) (p : List Byte) (cap : Nat),
    s.cfg.legal = true → cap < 3 →
    exec (.encodeReq cmd sel p cap) s = .next { s with out := { mem := s.out.mem, olen := 0, cap := cap } }

/-- ENCODE writes the frame of the longest payload prefix that the capacity rule admits. States R99, R101, R106. -/
def Obligations.EncodeResult : Prop :=
  ∀ (s : State) (cmd : Nibble) (sel : Option Nibble) (p : List Byte) (cap : Nat), s.cfg.legal = true →
    (cap < 3 →
      exec (.encodeReq cmd sel p cap) s = .next { s with out := { mem := s.out.mem, olen := 0, cap := cap } }) ∧
    (3 ≤ cap → ∃ (k : Nat) (t : State),
      exec (.encodeReq cmd sel p cap) s = .next t ∧ k ≤ p.length ∧
      Memory.bytesBelow t.out.mem t.out.olen = some (frame (sel.getD s.cfg.myPort) cmd (p.take k)) ∧
      t.out.olen = 3 + k + escapedCount (p.take k) ∧ 3 ≤ t.out.olen ∧ t.out.olen ≤ cap ∧ t.out.cap = cap ∧
      (∀ j, j < k → 2 ≤ cap - (2 + j + escapedCount (p.take j)) - 1) ∧
      (k < p.length → cap - (2 + k + escapedCount (p.take k)) - 1 < 2) ∧
      (∀ a, t.out.olen ≤ a → Memory.read t.out.mem a = Memory.read s.out.mem a) ∧
      t = { s with out := t.out, conds := s.conds ++ (if k < p.length then [.encTrunc] else []) })

/-- With C >= 2|P| + 3 the whole payload is framed. Derived from 40_encoder.md R109, 30_encoding.md R97,
30_encoding.md R77. -/
def Obligations.EncodeWholePayload : Prop :=
  ∀ (s : State) (cmd : Nibble) (sel : Option Nibble) (p : List Byte) (cap : Nat),
    s.cfg.legal = true → 2 * p.length + 3 ≤ cap →
    ∃ t, exec (.encodeReq cmd sel p cap) s = .next t ∧ t.conds = s.conds ∧
      t.out.olen = 3 + p.length + escapedCount p ∧
      Memory.bytesBelow t.out.mem t.out.olen = some (frame (sel.getD s.cfg.myPort) cmd p)

/-- Equal requests with equal MY_PORT give equal results. States R98. -/
def Obligations.EncodeReadsOnlyItsOperands : Prop :=
  ∀ (s s' : State) (cmd : Nibble) (sel : Option Nibble) (p : List Byte) (cap : Nat),
    s.cfg.legal = true → s'.cfg.legal = true → s.cfg.myPort = s'.cfg.myPort →
    ∃ t t', exec (.encodeReq cmd sel p cap) s = .next t ∧ exec (.encodeReq cmd sel p cap) s' = .next t' ∧
      t.out.olen = t'.out.olen ∧
      Memory.bytesBelow t.out.mem t.out.olen = Memory.bytesBelow t'.out.mem t'.out.olen ∧
      (∀ a, t.out.olen ≤ a → Memory.read t.out.mem a = Memory.read s.out.mem a) ∧
      t = { s with out := t.out, conds := t.conds }

/-- ENC_STUFF_DELIM, ENC_STUFF_ESC and ENC_LITERAL write their bytes. States R103, R104, R105. -/
def Obligations.PayloadRowsWrite : Prop :=
  ∀ (s : State) (b : Byte), s.cfg.legal = true → 2 ≤ s.out.cap - s.out.olen - 1 →
    exec .encStuffDelim s = .next { s with out := { s.out with
      mem := Memory.write (Memory.write s.out.mem s.out.olen 0xDB#8) (s.out.olen + 1) 0xDC#8,
      olen := s.out.olen + 2 } } ∧
    exec .encStuffEsc s = .next { s with out := { s.out with
      mem := Memory.write (Memory.write s.out.mem s.out.olen 0xDB#8) (s.out.olen + 1) 0xDD#8,
      olen := s.out.olen + 2 } } ∧
    exec (.encLiteral b) s = .next { s with out := { s.out with
      mem := Memory.write s.out.mem s.out.olen b, olen := s.out.olen + 1 } }

/-- A payload row without room writes nothing. Derived from 40_encoder.md R101, 60_exceptions.md R165. The choice of
the model in it: log entry 13. -/
def Obligations.PayloadRowsWithoutRoom : Prop :=
  ∀ (s : State) (i : Instr), s.cfg.legal = true → formatOf i = .encPayloadByte → s.out.cap - s.out.olen - 1 < 2 →
    exec i s = .next { s with conds := s.conds ++ [.encTrunc] }

/-- The payload loop runs the row each payload byte decodes to. Derived from 40_encoder.md R99, 30_encoding.md R77. -/
def Obligations.PayloadLoopRunsDecodedRow : Prop :=
  ∀ (s : State) (b : Byte) (rest : List Byte), s.cfg.legal = true → 2 ≤ s.out.cap - s.out.olen - 1 →
    ∃ t, exec (decodePayload b) s = .next t ∧ t = { s with out := t.out } ∧
      putPayload (b :: rest) s.out = putPayload rest t.out

/-- RETURN resets the buffer and exits to CLI. States R134. Up to the form of the model: log entry 9. -/
def Obligations.ReturnExitsToCli : Prop :=
  ∀ (s : State), s.cfg.legal = true →
    ∃ marker : Bool, exec .returnCli s = .next { s with
      len := 0, esc := false, mode := .cli, returnInRead := marker, events := s.events ++ [.setModeCli] }

/-- A frame for another port is ignored. States R135, R136. -/
def Obligations.UnaddressedIgnored : Prop :=
  ∀ (s : State) (port cmd : Nibble), s.cfg.legal = true →
    exec (.unaddressed port cmd) s = .next { s with conds := s.conds ++ [.unaddressed] } ∧
    exec (.globalOther cmd) s = .next { s with conds := s.conds ++ [.unaddressed] }

/-- An own-port row that stands for another port is ignored (the model's choice). Derived from 42_router.md R133,
42_router.md R135. The choice of the model in it: log entry 14. -/
def Obligations.OwnPortRowsFilterThePort : Prop :=
  ∀ (s : State) (port : Nibble) (cb : List Byte) (i : Instr), s.cfg.legal = true → port ≠ s.cfg.myPort →
    commandBuffer s = some cb →
    i ∈ ([.data port, .txDelay port, .persist port, .slotTime port, .txTail port, .fullDuplex port, .vendor port,
      .cmdUndef7 port, .cmdUndef8 port, .cmdUndef9 port, .cmdUndef10 port, .cmdUndef11 port, .cmdUndef12 port,
      .cmdUndef13 port, .cmdUndef14 port, .cmdReturnLocal port] : List Instr) →
    exec i s = .next { s with conds := s.conds ++ [.unaddressed] }

/-- DATA submits the data with the current delay. States R139. -/
def Obligations.DataSubmitsPayload : Prop :=
  ∀ (s : State) (h : Byte) (data : List Byte), s.cfg.legal = true → commandBuffer s = some (h :: data) →
    (data = [] → exec (.data s.cfg.myPort) s = .next s) ∧
    (data ≠ [] → exec (.data s.cfg.myPort) s =
      .next { s with events := s.events ++ [.submit data s.cfg.dataPriority s.txdelay] })

/-- TXDELAY stores ten times the parsed value. States R137. -/
def Obligations.TxDelaySetsDelay : Prop :=
  ∀ (s : State) (h : Byte) (data : List Byte), s.cfg.legal = true → commandBuffer s = some (h :: data) →
    (data = [] → exec (.txDelay s.cfg.myPort) s = .next s) ∧
    (data ≠ [] → ∃ v : Word32, v.toNat = ((txdelayParse s.cfg data).toNat * 10) % 2 ^ 32 ∧
      exec (.txDelay s.cfg.myPort) s = .next { s with txdelay := v }) ∧
    (∀ (b : Byte) (rest : List Byte), s.cfg.txdelayParse = .standard → data = b :: rest →
      (b.toNat < 0x30 ∨ 0x39 < b.toNat) → exec (.txDelay s.cfg.myPort) s = .next { s with txdelay := 0#32 })

/-- The default TXDELAY_PARSE reads the longest digit prefix. States R138. -/
def Obligations.DefaultParseReadsDigits : Prop :=
  ∀ (c : Config) (d : List Byte), c.txdelayParse = .standard →
    (txdelayParse c d).toNat =
      ((d.takeWhile (fun b => decide (0x30 ≤ b.toNat ∧ b.toNat ≤ 0x39))).foldl
        (fun v b => v * 10 + (b.toNat - 0x30)) 0) % 2 ^ 32

/-- PERSIST, SLOTTIME, TXTAIL and FULLDUPLEX are no-ops. States R140, R141, R142, R143. -/
def Obligations.UnimplementedCommandsDoNothing : Prop :=
  ∀ (s : State), s.cfg.legal = true →
    exec (.persist s.cfg.myPort) s = .next s ∧ exec (.slotTime s.cfg.myPort) s = .next s ∧
    exec (.txTail s.cfg.myPort) s = .next s ∧ exec (.fullDuplex s.cfg.myPort) s = .next s

/-- VENDOR runs the row its sub-command decodes to. States R144, R152, R157. -/
def Obligations.VendorRunsSubcommand : Prop :=
  ∀ (s : State) (h : Byte), s.cfg.legal = true →
    (commandBuffer s = some [h] → exec (.vendor s.cfg.myPort) s = .next s) ∧
    (∀ (sub : Byte) (rest : List Byte), commandBuffer s = some (h :: sub :: rest) →
      ∃ t, exec (decodeVendor sub) s = .next t ∧ exec (.vendor s.cfg.myPort) s = .next t)

/-- Command codes 7 to 14 and own-port 15 write no state and emit nothing. States R145, R146. -/
def Obligations.UndefinedCommandsDoNothing : Prop :=
  ∀ (s : State) (i : Instr), s.cfg.legal = true →
    i ∈ ([.cmdUndef7 s.cfg.myPort, .cmdUndef8 s.cfg.myPort, .cmdUndef9 s.cfg.myPort, .cmdUndef10 s.cfg.myPort,
      .cmdUndef11 s.cfg.myPort, .cmdUndef12 s.cfg.myPort, .cmdUndef13 s.cfg.myPort, .cmdUndef14 s.cfg.myPort,
      .cmdReturnLocal s.cfg.myPort] : List Instr) →
    exec i s = .next { s with conds := s.conds ++ [.undefCmd] }

/-- GETRADIOSTATS and SIGNALREPORTING have no effect. States R153, R154. -/
def Obligations.VendorStubsDoNothing : Prop :=
  ∀ (s : State), s.cfg.legal = true →
    exec .getRadioStats s = .next s ∧ exec .signalReporting s = .next s

/-- An unknown vendor sub-command is answered by the four-byte reply. States R155. -/
def Obligations.UnknownVendorReply : Prop :=
  ∀ (s : State) (sub : Byte), s.cfg.legal = true →
    exec (.vendorUnknown sub) s = .next { s with
      conds := s.conds ++ [.unknownVendor],
      events := s.events ++ [.txWrite [0xC0#8, s.cfg.myPort.setWidth 8 * 16#8 + 6#8, 0xFF#8, 0xC0#8]] }

/-- DISPATCH runs the row its header byte decodes to. States R120. -/
def Obligations.DispatchRunsDecodedHeader : Prop :=
  ∀ (s : State) (h : Byte) (data : List Byte), s.cfg.legal = true → commandBuffer s = some (h :: data) →
    ∃ u, exec (decodeHeader s.cfg.myPort h) { s with routed := s.routed ++ [h :: data] } = .next u ∧
      dispatch s = .next { u with len := 0, esc := false }

/-- What a de-framer operation leaves unchanged. Derived from 41_deframer.md R114, 41_deframer.md R115,
41_deframer.md R119, 20_memory.md R56, 10_state.md R40. -/
def Obligations.FeedFrame : Prop :=
  ∀ (i : Instr) (s t : State), formatOf i = .rxByte → exec i s = .next t →
    t.cfg = s.cfg ∧ t.inputs = s.inputs ∧ t.out = s.out ∧
    (∀ a, a ≠ s.len → Memory.read t.cb a = Memory.read s.cb a) ∧
    ((i = .feedEsc ∨ i = .feedDelim ∨ (s.esc = true ∧ ∃ b, i = .feedOther b)) →
      ∀ a, Memory.read t.cb a = Memory.read s.cb a) ∧
    (t.routed = s.routed →
      t.txdelay = s.txdelay ∧ t.mode = s.mode ∧ t.events = s.events ∧ t.returnInRead = s.returnInRead)

/-- What a router or vendor operation leaves unchanged. Derived from 42_router.md R130, 43_vendor.md R151,
10_state.md R34, 10_state.md R36. -/
def Obligations.RouterFrame : Prop :=
  ∀ (i : Instr) (s t : State), (formatOf i = .header8 ∨ formatOf i = .vendorSubcmd8) → exec i s = .next t →
    t.cfg = s.cfg ∧ t.inputs = s.inputs ∧ t.out = s.out ∧ t.routed = s.routed ∧
    (∀ a, Memory.read t.cb a = Memory.read s.cb a) ∧
    (i ≠ .returnCli → t.len = s.len ∧ t.esc = s.esc ∧ t.mode = s.mode ∧ t.returnInRead = s.returnInRead) ∧
    ((∀ p, i ≠ .txDelay p) → t.txdelay = s.txdelay) ∧
    ((i ≠ .returnCli ∧ (∀ p, i ≠ .data p) ∧ (∀ p, i ≠ .vendor p) ∧ (∀ b, i ≠ .vendorUnknown b)) →
      t.events = s.events)

/-- What an encoder operation leaves unchanged. Derived from 40_encoder.md R98, 20_memory.md R57, 40_encoder.md
R103, 40_encoder.md R104, 40_encoder.md R105. -/
def Obligations.EncoderFrame : Prop :=
  ∀ (i : Instr) (s t : State), (formatOf i = .encRequest ∨ formatOf i = .encPayloadByte) → exec i s = .next t →
    t = { s with out := t.out, conds := t.conds } ∧
    (formatOf i = .encRequest → ∀ a, t.out.olen ≤ a → Memory.read t.out.mem a = Memory.read s.out.mem a) ∧
    (formatOf i = .encPayloadByte → t.out.cap = s.out.cap ∧
      ∀ a, a ≠ s.out.olen → a ≠ s.out.olen + 1 → Memory.read t.out.mem a = Memory.read s.out.mem a) ∧
    (∀ b, i = .encLiteral b → ∀ a, a ≠ s.out.olen → Memory.read t.out.mem a = Memory.read s.out.mem a)

/-- The escape flag is set only by FEED_ESC. Derived from 10_state.md R40. -/
def Obligations.EscSetOnlyByFeedEsc : Prop :=
  ∀ (i : Instr) (s t : State), exec i s = .next t → s.esc = false → t.esc = true → i = .feedEsc

/-- No operation reads the mode flag, and none writes KISS. Derived from 10_state.md R36, 10_state.md R49. -/
def Obligations.ModeIsNeverRead : Prop :=
  ∀ (i : Instr) (s t : State) (m : Mode), exec i s = .next t →
    (t.mode = s.mode ∨ t.mode = .cli) ∧
    ∃ m', (m' = m ∨ m' = .cli) ∧ exec i { s with mode := m } = .next { t with mode := m' }

/-- No operation reads the diagnostic traces. Derived from 00_scope.md R24, 60_exceptions.md R159, 41_deframer.md
R129. -/
def Obligations.TracesAreNeverRead : Prop :=
  ∀ (i : Instr) (s t : State) (ks : List Condition) (rs : List (List Byte)), exec i s = .next t →
    ∃ ks' rs', exec i { s with conds := ks, routed := rs } = .next { t with conds := ks', routed := rs' }

/-- Decoding the encoding of a well-formed operation gives it back. Derived from 30_encoding.md R76, 30_encoding.md
R78, 30_encoding.md R83, 30_encoding.md R86. The choice of the model in it: log entry 18. -/
def Obligations.DecodeEncodeAgree : Prop :=
  ∀ (myPort : Nibble) (i : Instr) (rest : List Byte), myPort ≠ 15#4 → wellFormed myPort i = true →
    formatOf i ≠ .encRequest → decode (formatOf i) myPort (encode i ++ rest) = .ok i rest

/-- Every byte decodes to one well-formed operation whose encoding it is. Derived from 30_encoding.md R76,
30_encoding.md R83, 30_encoding.md R86, 41_deframer.md R113. The choice of the model in it: log entry 18. -/
def Obligations.EncodeDecodeAgree : Prop :=
  ∀ (f : Format) (myPort : Nibble) (b : Byte) (rest : List Byte), f ≠ .encRequest → myPort ≠ 15#4 →
    ∃ i, decode f myPort (b :: rest) = .ok i rest ∧ formatOf i = f ∧ wellFormed myPort i = true ∧ encode i = [b]

/-- Every step keeps the invariant. Derived from 10_state.md R52, 41_deframer.md R123, 20_memory.md R70, 10_state.md
R31. -/
def Obligations.StepKeepsInv : Prop :=
  ∀ (s t : State), Inv s → step s = .next t → Inv t

/-- The block never faults and never halts. States R158. -/
def Obligations.BlockNeverFaults : Prop :=
  ∀ (s : State), Inv s → (∃ t, step s = .next t) ∧ ∀ i, ∃ t, exec i s = .next t

/-- Feeding an encoded frame back routes exactly its header and payload. States R110. -/
def Obligations.EncodedFrameRoundTrips : Prop :=
  ∀ (s : State) (port cmd : Nibble) (p : List Byte) (cap : Nat),
    Inv s → s.len = 0 → s.esc = false → headerByte port cmd ≠ 0xC0#8 → headerByte port cmd ≠ 0xDB#8 →
    2 * p.length + 3 ≤ cap → p.length + 2 ≤ s.cfg.n →
    ∃ (e u t : State) (body : List Byte),
      exec (.encodeReq cmd (some port) p cap) s = .next e ∧
      Memory.bytesBelow e.out.mem e.out.olen = some (body ++ [0xC0#8]) ∧
      feedAll body e = .next u ∧ feed 0xC0#8 u = .next t ∧
      (p.length + 3 ≤ s.cfg.n → u.routed = s.routed) ∧
      (p.length + 2 = s.cfg.n → u.routed = s.routed ++ [headerByte port cmd :: p]) ∧
      t.routed = s.routed ++ [headerByte port cmd :: p] ∧ t.len = 0 ∧ t.esc = false

/-- The fallback reply is the only output to the transport. States R156. -/
def Obligations.TxWriteOnlyFromUnknownVendor : Prop :=
  ∀ (s t : State), Inv s → step s = .next t →
    ∃ es, t.events = s.events ++ es ∧ ∀ bytes, Event.txWrite bytes ∈ es →
      es = [.txWrite [0xC0#8, headerByte s.cfg.myPort 6#4, 0xFF#8, 0xC0#8]] ∧
      ∃ sub rest, t.routed = s.routed ++ [headerByte s.cfg.myPort 6#4 :: sub :: rest] ∧
        sub ≠ 0x01#8 ∧ sub ≠ 0x80#8

/-- The mode leaves KISS only by a Return frame or a host write. Derived from 60_exceptions.md R177, 10_state.md
R49, 10_state.md R36. -/
def Obligations.KissLeftOnlyByReturnOrHost : Prop :=
  ∀ (s t : State), step s = .next t →
    (s.mode = .kiss → t.mode = .cli →
      (∃ rest, s.inputs = .hostMode .cli :: rest) ∨
      (∃ data, t.routed = s.routed ++ [0xFF#8 :: data] ∧ t.events = s.events ++ [.setModeCli])) ∧
    (s.mode = .cli → t.mode = .kiss → ∃ rest, s.inputs = .hostMode .kiss :: rest)

/-- Only a TXDELAY command with data changes txdelay. Derived from 10_state.md R34, 10_state.md R42,
70_reset_and_hazards.md R187. -/
def Obligations.DelayChangedOnlyByTxDelay : Prop :=
  ∀ (s t : State), step s = .next t → t.txdelay ≠ s.txdelay →
    ∃ data, data ≠ [] ∧ t.routed = s.routed ++ [headerByte s.cfg.myPort 1#4 :: data] ∧
      t.txdelay = txdelayParse s.cfg data * 10#32

/-- A step consumes exactly one input and writes no configuration. Derived from 10_state.md R54, 20_memory.md R58,
00_scope.md R3. The choice of the model in it: log entries 1, 10, 11. -/
def Obligations.StepTakesOneInputAndKeepsConfig : Prop :=
  ∀ (s t : State), step s = .next t → t.inputs = s.inputs.tail ∧ t.cfg = s.cfg

/-- The event history is never reordered or truncated. Derived from 10_state.md R48, 20_memory.md R59, 20_memory.md
R72. -/
def Obligations.EventHistoryOnlyGrows : Prop :=
  ∀ (s t : State), step s = .next t →
    ∃ es, t.events = s.events ++ es ∧ es.length ≤ 1 ∧ ∃ bs, txStream t = txStream s ++ bs

/-- A routed buffer has 1 to N - 1 bytes. Derived from 30_encoding.md R95, 41_deframer.md R128, 42_router.md R130. -/
def Obligations.RoutedBuffersAreBounded : Prop :=
  ∀ (s t : State), Inv s → step s = .next t →
    t.routed = s.routed ∨ ∃ cb, t.routed = s.routed ++ [cb] ∧ 1 ≤ cb.length ∧ cb.length ≤ s.cfg.n - 1

/-- One byte raises at most one framing condition. Derived from 60_exceptions.md R172, 60_exceptions.md R159. -/
def Obligations.OneFramingConditionPerStep : Prop :=
  ∀ (s t : State), step s = .next t →
    ∃ ks, t.conds = s.conds ++ ks ∧ (ks.filter isFraming).length ≤ 1 ∧
      (.encTrunc ∈ ks → ∃ cmd sel p cap ob rest, s.inputs = .encode cmd sel p cap ob :: rest)

/-- With STOP, no byte is fed while the mode is CLI. Derived from 10_state.md R44, 70_reset_and_hazards.md R199,
41_deframer.md R126. The choice of the model in it: log entry 9. -/
def Obligations.NothingIsFedInCliMode : Prop :=
  ∀ (s : State), s.cfg.gateAfterReturn = .stop →
    (s.mode = .cli → ∀ bs,
      drain bs s = .next { s with returnInRead := bs.isEmpty && s.returnInRead } ∧ drainRest bs s = .next s) ∧
    (∀ b t bs, feed b { s with returnInRead := false } = .next t → s.mode = .kiss → t.mode = .cli →
      drain (b :: bs) s = .next t)

/-- With STOP, however the bytes are split into reads, the result is the same. Derived from 41_deframer.md R125,
41_deframer.md R126, 00_scope.md R18. The choice of the model in it: log entry 9. -/
def Obligations.ChunksDoNotMatter : Prop :=
  ∀ (s t : State) (bs : List (Byte × Bool)), s.cfg.legal = true → s.cfg.gateAfterReturn = .stop →
    drain (bs.map Prod.fst) s = .next t →
    ∃ r, Host.Core.run Sys2Proof.core bs.length
        { s with inputs := bs.map (fun p => Input.byte p.1 p.2) } =
      .next { t with inputs := [], returnInRead := r }

/-- After a Return, STOP feeds nothing and CONTINUE feeds exactly the rest of its read. Derived from 10_state.md
R44, 00_scope.md R18, 70_reset_and_hazards.md R199, 41_deframer.md R126. The choice of the model in it: log
entry 9. -/
def Obligations.ReadBoundaryEndsTheReturnGate : Prop :=
  (∀ (s t : State), exec .returnCli s = .next t → t.returnInRead = true) ∧
  (∀ (s v : State) (ps qs ys : List Byte), Inv s → ps ≠ [] → s.inputs = readOf (ps ++ qs) ++ readOf ys →
    Host.Core.run Sys2Proof.core ps.length s = .next v → v.mode = .cli →
    (s.cfg.gateAfterReturn = .stop →
      Host.Core.run Sys2Proof.core (qs.length + ys.length) v =
        .next { v with inputs := [], returnInRead := ys.isEmpty && v.returnInRead }) ∧
    (s.cfg.gateAfterReturn = .continueRead → v.returnInRead = true →
      ∃ w, feedAll qs v = .next w ∧
        Host.Core.run Sys2Proof.core (qs.length + ys.length) v =
          .next { w with inputs := [], returnInRead := ys.isEmpty }) ∧
    (s.cfg.gateAfterReturn = .continueRead → v.returnInRead = false →
      Host.Core.run Sys2Proof.core (qs.length + ys.length) v = .next { v with inputs := [] }))

/-- After a double escape the bytes up to the next delimiter are read as a new frame. Derived from
70_reset_and_hazards.md R201, 41_deframer.md R114, 41_deframer.md R121. -/
def Obligations.DoubleEscapeDropsHeader : Prop :=
  ∀ (s : State) (h : Byte), Inv s → s.len = 0 → s.esc = false → h ≠ 0xC0#8 → h ≠ 0xDB#8 →
    (3 ≤ s.cfg.n → ∀ bs, feedAll ([0xC0#8, h, 0xDB#8, 0xDB#8] ++ bs) s =
      feedAll bs { s with cb := Memory.write s.cb 0 h, conds := s.conds ++ [.doubleEsc] }) ∧
    (∀ w, 3 ≤ s.cfg.n → w ≠ [] → w.length + 1 ≤ s.cfg.n →
      ∃ t, feedAll ([0xC0#8, h, 0xDB#8, 0xDB#8] ++ stuff w ++ [0xC0#8]) s = .next t ∧
        t.routed = s.routed ++ [w] ∧ t.len = 0 ∧ t.esc = false) ∧
    (∀ w, s.cfg.n = 2 →
      ∃ t, feedAll ([0xC0#8, h, 0xDB#8, 0xDB#8] ++ stuff w ++ [0xC0#8]) s = .next t ∧
        t.routed = s.routed ++ [[h]] ++ w.map (fun b => [b]) ∧ t.len = 0 ∧ t.esc = false)

/-- TxDelay "50" and then Data submits with a delay of 500 ms. Derived from 42_router.md R137, 42_router.md R139,
70_reset_and_hazards.md R198, 95_test_vectors.md L1-7. -/
def Obligations.DelaySetThenDataSubmitted : Prop :=
  ∀ (s : State) (p : List Byte), Inv s → s.len = 0 → s.esc = false → s.cfg.txdelayParse = .standard →
    4 ≤ s.cfg.n → s.cfg.myPort ≠ 12#4 → p ≠ [] → p.length + 2 ≤ s.cfg.n →
    ∃ t, feedAll (frame s.cfg.myPort 1#4 [0x35#8, 0x30#8] ++ frame s.cfg.myPort 0#4 p) s = .next t ∧
      t.events = s.events ++ [.submit p s.cfg.dataPriority 500#32] ∧ t.txdelay = 500#32 ∧ t.len = 0

/-- A served encode request keeps the caller's bytes from olen to C - 1 and reads none of them. States R57. Up to
the form of the model: log entry 12. -/
def Obligations.CallerBufferIsKept : Prop :=
  ∀ (s : State) (cmd : Nibble) (sel : Option Nibble) (p : List Byte) (cap : Nat) (ob ob' : List Byte)
    (rest : List Input), s.cfg.legal = true → s.inputs = .encode cmd sel p cap ob :: rest →
    ∃ t t', step s = .next t ∧ t.out.olen ≤ cap ∧
      (∀ a, t.out.olen ≤ a → a < cap → Memory.read t.out.mem a = ob[a]?) ∧
      (∀ a, cap ≤ a → Memory.read t.out.mem a = none) ∧
      step { s with inputs := .encode cmd sel p cap ob' :: rest } = .next t' ∧
      t'.out.olen = t.out.olen ∧
      Memory.bytesBelow t'.out.mem t.out.olen = Memory.bytesBelow t.out.mem t.out.olen ∧
      t' = { t with out := { t'.out with olen := t.out.olen, cap := t.out.cap } }
end

