-- ==== Sys2Proof/Laws/State.lean ====
section
/-! SUPPORT. One lemma per field per state update, each true by `rfl`: later proofs never unfold an update. -/

namespace Sys2Proof.Machine

@[simp] theorem emit_cfg (e : Event) (s : State) : (emit e s).cfg = s.cfg := rfl
@[simp] theorem emit_inputs (e : Event) (s : State) : (emit e s).inputs = s.inputs := rfl
@[simp] theorem emit_cb (e : Event) (s : State) : (emit e s).cb = s.cb := rfl
@[simp] theorem emit_len (e : Event) (s : State) : (emit e s).len = s.len := rfl
@[simp] theorem emit_esc (e : Event) (s : State) : (emit e s).esc = s.esc := rfl
@[simp] theorem emit_txdelay (e : Event) (s : State) : (emit e s).txdelay = s.txdelay := rfl
@[simp] theorem emit_mode (e : Event) (s : State) : (emit e s).mode = s.mode := rfl
@[simp] theorem emit_returnInRead (e : Event) (s : State) : (emit e s).returnInRead = s.returnInRead := rfl
@[simp] theorem emit_out (e : Event) (s : State) : (emit e s).out = s.out := rfl
@[simp] theorem emit_events (e : Event) (s : State) : (emit e s).events = s.events ++ [e] := rfl
@[simp] theorem emit_conds (e : Event) (s : State) : (emit e s).conds = s.conds := rfl
@[simp] theorem emit_routed (e : Event) (s : State) : (emit e s).routed = s.routed := rfl

@[simp] theorem record_cfg (k : Condition) (s : State) : (record k s).cfg = s.cfg := rfl
@[simp] theorem record_inputs (k : Condition) (s : State) : (record k s).inputs = s.inputs := rfl
@[simp] theorem record_cb (k : Condition) (s : State) : (record k s).cb = s.cb := rfl
@[simp] theorem record_len (k : Condition) (s : State) : (record k s).len = s.len := rfl
@[simp] theorem record_esc (k : Condition) (s : State) : (record k s).esc = s.esc := rfl
@[simp] theorem record_txdelay (k : Condition) (s : State) : (record k s).txdelay = s.txdelay := rfl
@[simp] theorem record_mode (k : Condition) (s : State) : (record k s).mode = s.mode := rfl
@[simp] theorem record_returnInRead (k : Condition) (s : State) : (record k s).returnInRead = s.returnInRead := rfl
@[simp] theorem record_out (k : Condition) (s : State) : (record k s).out = s.out := rfl
@[simp] theorem record_events (k : Condition) (s : State) : (record k s).events = s.events := rfl
@[simp] theorem record_conds (k : Condition) (s : State) : (record k s).conds = s.conds ++ [k] := rfl
@[simp] theorem record_routed (k : Condition) (s : State) : (record k s).routed = s.routed := rfl

@[simp] theorem logRouted_cfg (b : List Byte) (s : State) : (logRouted b s).cfg = s.cfg := rfl
@[simp] theorem logRouted_inputs (b : List Byte) (s : State) : (logRouted b s).inputs = s.inputs := rfl
@[simp] theorem logRouted_cb (b : List Byte) (s : State) : (logRouted b s).cb = s.cb := rfl
@[simp] theorem logRouted_len (b : List Byte) (s : State) : (logRouted b s).len = s.len := rfl
@[simp] theorem logRouted_esc (b : List Byte) (s : State) : (logRouted b s).esc = s.esc := rfl
@[simp] theorem logRouted_txdelay (b : List Byte) (s : State) : (logRouted b s).txdelay = s.txdelay := rfl
@[simp] theorem logRouted_mode (b : List Byte) (s : State) : (logRouted b s).mode = s.mode := rfl
@[simp] theorem logRouted_returnInRead (b : List Byte) (s : State) : (logRouted b s).returnInRead = s.returnInRead := rfl
@[simp] theorem logRouted_out (b : List Byte) (s : State) : (logRouted b s).out = s.out := rfl
@[simp] theorem logRouted_events (b : List Byte) (s : State) : (logRouted b s).events = s.events := rfl
@[simp] theorem logRouted_conds (b : List Byte) (s : State) : (logRouted b s).conds = s.conds := rfl
@[simp] theorem logRouted_routed (b : List Byte) (s : State) : (logRouted b s).routed = s.routed ++ [b] := rfl

@[simp] theorem setLen_cfg (n : Nat) (s : State) : (setLen n s).cfg = s.cfg := rfl
@[simp] theorem setLen_inputs (n : Nat) (s : State) : (setLen n s).inputs = s.inputs := rfl
@[simp] theorem setLen_cb (n : Nat) (s : State) : (setLen n s).cb = s.cb := rfl
@[simp] theorem setLen_len (n : Nat) (s : State) : (setLen n s).len = n := rfl
@[simp] theorem setLen_esc (n : Nat) (s : State) : (setLen n s).esc = s.esc := rfl
@[simp] theorem setLen_txdelay (n : Nat) (s : State) : (setLen n s).txdelay = s.txdelay := rfl
@[simp] theorem setLen_mode (n : Nat) (s : State) : (setLen n s).mode = s.mode := rfl
@[simp] theorem setLen_returnInRead (n : Nat) (s : State) : (setLen n s).returnInRead = s.returnInRead := rfl
@[simp] theorem setLen_out (n : Nat) (s : State) : (setLen n s).out = s.out := rfl
@[simp] theorem setLen_events (n : Nat) (s : State) : (setLen n s).events = s.events := rfl
@[simp] theorem setLen_conds (n : Nat) (s : State) : (setLen n s).conds = s.conds := rfl
@[simp] theorem setLen_routed (n : Nat) (s : State) : (setLen n s).routed = s.routed := rfl

@[simp] theorem setTxdelay_cfg (v : Word32) (s : State) : (setTxdelay v s).cfg = s.cfg := rfl
@[simp] theorem setTxdelay_inputs (v : Word32) (s : State) : (setTxdelay v s).inputs = s.inputs := rfl
@[simp] theorem setTxdelay_cb (v : Word32) (s : State) : (setTxdelay v s).cb = s.cb := rfl
@[simp] theorem setTxdelay_len (v : Word32) (s : State) : (setTxdelay v s).len = s.len := rfl
@[simp] theorem setTxdelay_esc (v : Word32) (s : State) : (setTxdelay v s).esc = s.esc := rfl
@[simp] theorem setTxdelay_txdelay (v : Word32) (s : State) : (setTxdelay v s).txdelay = v := rfl
@[simp] theorem setTxdelay_mode (v : Word32) (s : State) : (setTxdelay v s).mode = s.mode := rfl
@[simp] theorem setTxdelay_returnInRead (v : Word32) (s : State) : (setTxdelay v s).returnInRead = s.returnInRead := rfl
@[simp] theorem setTxdelay_out (v : Word32) (s : State) : (setTxdelay v s).out = s.out := rfl
@[simp] theorem setTxdelay_events (v : Word32) (s : State) : (setTxdelay v s).events = s.events := rfl
@[simp] theorem setTxdelay_conds (v : Word32) (s : State) : (setTxdelay v s).conds = s.conds := rfl
@[simp] theorem setTxdelay_routed (v : Word32) (s : State) : (setTxdelay v s).routed = s.routed := rfl

@[simp] theorem setOut_cfg (o : OutBuf) (s : State) : (setOut o s).cfg = s.cfg := rfl
@[simp] theorem setOut_inputs (o : OutBuf) (s : State) : (setOut o s).inputs = s.inputs := rfl
@[simp] theorem setOut_cb (o : OutBuf) (s : State) : (setOut o s).cb = s.cb := rfl
@[simp] theorem setOut_len (o : OutBuf) (s : State) : (setOut o s).len = s.len := rfl
@[simp] theorem setOut_esc (o : OutBuf) (s : State) : (setOut o s).esc = s.esc := rfl
@[simp] theorem setOut_txdelay (o : OutBuf) (s : State) : (setOut o s).txdelay = s.txdelay := rfl
@[simp] theorem setOut_mode (o : OutBuf) (s : State) : (setOut o s).mode = s.mode := rfl
@[simp] theorem setOut_returnInRead (o : OutBuf) (s : State) : (setOut o s).returnInRead = s.returnInRead := rfl
@[simp] theorem setOut_out (o : OutBuf) (s : State) : (setOut o s).out = o := rfl
@[simp] theorem setOut_events (o : OutBuf) (s : State) : (setOut o s).events = s.events := rfl
@[simp] theorem setOut_conds (o : OutBuf) (s : State) : (setOut o s).conds = s.conds := rfl
@[simp] theorem setOut_routed (o : OutBuf) (s : State) : (setOut o s).routed = s.routed := rfl

@[simp] theorem storeCb_cfg (v : Byte) (s : State) : (storeCb v s).cfg = s.cfg := rfl
@[simp] theorem storeCb_inputs (v : Byte) (s : State) : (storeCb v s).inputs = s.inputs := rfl
@[simp] theorem storeCb_cb (v : Byte) (s : State) : (storeCb v s).cb = Memory.write s.cb s.len v := rfl
@[simp] theorem storeCb_len (v : Byte) (s : State) : (storeCb v s).len = s.len + 1 := rfl
@[simp] theorem storeCb_esc (v : Byte) (s : State) : (storeCb v s).esc = s.esc := rfl
@[simp] theorem storeCb_txdelay (v : Byte) (s : State) : (storeCb v s).txdelay = s.txdelay := rfl
@[simp] theorem storeCb_mode (v : Byte) (s : State) : (storeCb v s).mode = s.mode := rfl
@[simp] theorem storeCb_returnInRead (v : Byte) (s : State) : (storeCb v s).returnInRead = s.returnInRead := rfl
@[simp] theorem storeCb_out (v : Byte) (s : State) : (storeCb v s).out = s.out := rfl
@[simp] theorem storeCb_events (v : Byte) (s : State) : (storeCb v s).events = s.events := rfl
@[simp] theorem storeCb_conds (v : Byte) (s : State) : (storeCb v s).conds = s.conds := rfl
@[simp] theorem storeCb_routed (v : Byte) (s : State) : (storeCb v s).routed = s.routed := rfl

@[simp] theorem setEsc_cfg (v : Bool) (s : State) : (setEsc v s).cfg = s.cfg := rfl
@[simp] theorem setEsc_inputs (v : Bool) (s : State) : (setEsc v s).inputs = s.inputs := rfl
@[simp] theorem setEsc_cb (v : Bool) (s : State) : (setEsc v s).cb = s.cb := rfl
@[simp] theorem setEsc_len (v : Bool) (s : State) : (setEsc v s).len = s.len := rfl
@[simp] theorem setEsc_esc (v : Bool) (s : State) : (setEsc v s).esc = v := rfl
@[simp] theorem setEsc_txdelay (v : Bool) (s : State) : (setEsc v s).txdelay = s.txdelay := rfl
@[simp] theorem setEsc_mode (v : Bool) (s : State) : (setEsc v s).mode = s.mode := rfl
@[simp] theorem setEsc_returnInRead (v : Bool) (s : State) : (setEsc v s).returnInRead = s.returnInRead := rfl
@[simp] theorem setEsc_out (v : Bool) (s : State) : (setEsc v s).out = s.out := rfl
@[simp] theorem setEsc_events (v : Bool) (s : State) : (setEsc v s).events = s.events := rfl
@[simp] theorem setEsc_conds (v : Bool) (s : State) : (setEsc v s).conds = s.conds := rfl
@[simp] theorem setEsc_routed (v : Bool) (s : State) : (setEsc v s).routed = s.routed := rfl

@[simp] theorem setMode_cfg (m : Mode) (s : State) : (setMode m s).cfg = s.cfg := rfl
@[simp] theorem setMode_inputs (m : Mode) (s : State) : (setMode m s).inputs = s.inputs := rfl
@[simp] theorem setMode_cb (m : Mode) (s : State) : (setMode m s).cb = s.cb := rfl
@[simp] theorem setMode_len (m : Mode) (s : State) : (setMode m s).len = s.len := rfl
@[simp] theorem setMode_esc (m : Mode) (s : State) : (setMode m s).esc = s.esc := rfl
@[simp] theorem setMode_txdelay (m : Mode) (s : State) : (setMode m s).txdelay = s.txdelay := rfl
@[simp] theorem setMode_mode (m : Mode) (s : State) : (setMode m s).mode = m := rfl
@[simp] theorem setMode_returnInRead (m : Mode) (s : State) : (setMode m s).returnInRead = s.returnInRead := rfl
@[simp] theorem setMode_out (m : Mode) (s : State) : (setMode m s).out = s.out := rfl
@[simp] theorem setMode_events (m : Mode) (s : State) : (setMode m s).events = s.events := rfl
@[simp] theorem setMode_conds (m : Mode) (s : State) : (setMode m s).conds = s.conds := rfl
@[simp] theorem setMode_routed (m : Mode) (s : State) : (setMode m s).routed = s.routed := rfl

@[simp] theorem emitSetModeCli_cfg (s : State) : (emitSetModeCli s).cfg = s.cfg := rfl
@[simp] theorem emitSetModeCli_inputs (s : State) : (emitSetModeCli s).inputs = s.inputs := rfl
@[simp] theorem emitSetModeCli_cb (s : State) : (emitSetModeCli s).cb = s.cb := rfl
@[simp] theorem emitSetModeCli_len (s : State) : (emitSetModeCli s).len = s.len := rfl
@[simp] theorem emitSetModeCli_esc (s : State) : (emitSetModeCli s).esc = s.esc := rfl
@[simp] theorem emitSetModeCli_txdelay (s : State) : (emitSetModeCli s).txdelay = s.txdelay := rfl
@[simp] theorem emitSetModeCli_mode (s : State) : (emitSetModeCli s).mode = .cli := rfl
@[simp] theorem emitSetModeCli_returnInRead (s : State) : (emitSetModeCli s).returnInRead = true := rfl
@[simp] theorem emitSetModeCli_out (s : State) : (emitSetModeCli s).out = s.out := rfl
@[simp] theorem emitSetModeCli_events (s : State) : (emitSetModeCli s).events = s.events ++ [.setModeCli] := rfl
@[simp] theorem emitSetModeCli_conds (s : State) : (emitSetModeCli s).conds = s.conds := rfl
@[simp] theorem emitSetModeCli_routed (s : State) : (emitSetModeCli s).routed = s.routed := rfl

@[simp] theorem takeInput_cfg (f : Bool) (rest : List Input) (s : State) : (takeInput f rest s).cfg = s.cfg := rfl
@[simp] theorem takeInput_inputs (f : Bool) (rest : List Input) (s : State) : (takeInput f rest s).inputs = rest := rfl
@[simp] theorem takeInput_cb (f : Bool) (rest : List Input) (s : State) : (takeInput f rest s).cb = s.cb := rfl
@[simp] theorem takeInput_len (f : Bool) (rest : List Input) (s : State) : (takeInput f rest s).len = s.len := rfl
@[simp] theorem takeInput_esc (f : Bool) (rest : List Input) (s : State) : (takeInput f rest s).esc = s.esc := rfl
@[simp] theorem takeInput_txdelay (f : Bool) (rest : List Input) (s : State) : (takeInput f rest s).txdelay = s.txdelay := rfl
@[simp] theorem takeInput_mode (f : Bool) (rest : List Input) (s : State) : (takeInput f rest s).mode = s.mode := rfl
@[simp] theorem takeInput_returnInRead (f : Bool) (rest : List Input) (s : State) : (takeInput f rest s).returnInRead = (!f && s.returnInRead) := rfl
@[simp] theorem takeInput_out (f : Bool) (rest : List Input) (s : State) : (takeInput f rest s).out = s.out := rfl
@[simp] theorem takeInput_events (f : Bool) (rest : List Input) (s : State) : (takeInput f rest s).events = s.events := rfl
@[simp] theorem takeInput_conds (f : Bool) (rest : List Input) (s : State) : (takeInput f rest s).conds = s.conds := rfl
@[simp] theorem takeInput_routed (f : Bool) (rest : List Input) (s : State) : (takeInput f rest s).routed = s.routed := rfl

@[simp] theorem supplyBuffer_cfg (ob : List Byte) (cap : Nat) (s : State) : (supplyBuffer ob cap s).cfg = s.cfg := rfl
@[simp] theorem supplyBuffer_inputs (ob : List Byte) (cap : Nat) (s : State) : (supplyBuffer ob cap s).inputs = s.inputs := rfl
@[simp] theorem supplyBuffer_cb (ob : List Byte) (cap : Nat) (s : State) : (supplyBuffer ob cap s).cb = s.cb := rfl
@[simp] theorem supplyBuffer_len (ob : List Byte) (cap : Nat) (s : State) : (supplyBuffer ob cap s).len = s.len := rfl
@[simp] theorem supplyBuffer_esc (ob : List Byte) (cap : Nat) (s : State) : (supplyBuffer ob cap s).esc = s.esc := rfl
@[simp] theorem supplyBuffer_txdelay (ob : List Byte) (cap : Nat) (s : State) : (supplyBuffer ob cap s).txdelay = s.txdelay := rfl
@[simp] theorem supplyBuffer_mode (ob : List Byte) (cap : Nat) (s : State) : (supplyBuffer ob cap s).mode = s.mode := rfl
@[simp] theorem supplyBuffer_returnInRead (ob : List Byte) (cap : Nat) (s : State) : (supplyBuffer ob cap s).returnInRead = s.returnInRead := rfl
@[simp] theorem supplyBuffer_out (ob : List Byte) (cap : Nat) (s : State) : (supplyBuffer ob cap s).out = { mem := Memory.ofBytes 0 (ob.take cap), olen := 0, cap := cap } := rfl
@[simp] theorem supplyBuffer_events (ob : List Byte) (cap : Nat) (s : State) : (supplyBuffer ob cap s).events = s.events := rfl
@[simp] theorem supplyBuffer_conds (ob : List Byte) (cap : Nat) (s : State) : (supplyBuffer ob cap s).conds = s.conds := rfl
@[simp] theorem supplyBuffer_routed (ob : List Byte) (cap : Nat) (s : State) : (supplyBuffer ob cap s).routed = s.routed := rfl

@[simp] theorem beginRead_cfg (s : State) : (beginRead s).cfg = s.cfg := rfl
@[simp] theorem beginRead_inputs (s : State) : (beginRead s).inputs = s.inputs := rfl
@[simp] theorem beginRead_cb (s : State) : (beginRead s).cb = s.cb := rfl
@[simp] theorem beginRead_len (s : State) : (beginRead s).len = s.len := rfl
@[simp] theorem beginRead_esc (s : State) : (beginRead s).esc = s.esc := rfl
@[simp] theorem beginRead_txdelay (s : State) : (beginRead s).txdelay = s.txdelay := rfl
@[simp] theorem beginRead_mode (s : State) : (beginRead s).mode = s.mode := rfl
@[simp] theorem beginRead_returnInRead (s : State) : (beginRead s).returnInRead = false := rfl
@[simp] theorem beginRead_out (s : State) : (beginRead s).out = s.out := rfl
@[simp] theorem beginRead_events (s : State) : (beginRead s).events = s.events := rfl
@[simp] theorem beginRead_conds (s : State) : (beginRead s).conds = s.conds := rfl
@[simp] theorem beginRead_routed (s : State) : (beginRead s).routed = s.routed := rfl

@[simp] theorem construct_cfg (c : Config) (m : Mode) : (State.construct c m).cfg = c := rfl
@[simp] theorem construct_inputs (c : Config) (m : Mode) : (State.construct c m).inputs = [] := rfl
@[simp] theorem construct_cb (c : Config) (m : Mode) : (State.construct c m).cb = [] := rfl
@[simp] theorem construct_len (c : Config) (m : Mode) : (State.construct c m).len = 0 := rfl
@[simp] theorem construct_esc (c : Config) (m : Mode) : (State.construct c m).esc = false := rfl
@[simp] theorem construct_txdelay (c : Config) (m : Mode) : (State.construct c m).txdelay = c.txdelayReset := rfl
@[simp] theorem construct_mode (c : Config) (m : Mode) : (State.construct c m).mode = m := rfl
@[simp] theorem construct_returnInRead (c : Config) (m : Mode) : (State.construct c m).returnInRead = false := rfl
@[simp] theorem construct_out (c : Config) (m : Mode) : (State.construct c m).out = { mem := [], olen := 0, cap := 0 } := rfl
@[simp] theorem construct_events (c : Config) (m : Mode) : (State.construct c m).events = [] := rfl
@[simp] theorem construct_conds (c : Config) (m : Mode) : (State.construct c m).conds = [] := rfl
@[simp] theorem construct_routed (c : Config) (m : Mode) : (State.construct c m).routed = [] := rfl

end Sys2Proof.Machine
end

