-- ==== Sys2Proof/Laws/Decode.lean ====
section
/-! SUPPORT. The header fields, and what each decoder answers. -/

namespace Sys2Proof

@[simp] theorem headerPort_headerByte (p c : Nibble) : headerPort (headerByte p c) = p := by
  revert p c; decide

@[simp] theorem headerCmd_headerByte (p c : Nibble) : headerCmd (headerByte p c) = c := by
  revert p c; decide

/-- The sixteen command codes. -/
theorem nibble_cases (c : Nibble) :
    c = 0#4 ∨ c = 1#4 ∨ c = 2#4 ∨ c = 3#4 ∨ c = 4#4 ∨ c = 5#4 ∨ c = 6#4 ∨ c = 7#4 ∨ c = 8#4 ∨ c = 9#4 ∨
    c = 10#4 ∨ c = 11#4 ∨ c = 12#4 ∨ c = 13#4 ∨ c = 14#4 ∨ c = 15#4 := by
  revert c; decide

/-- A header byte is its two fields. -/
theorem headerByte_fields (h : Byte) : headerByte (headerPort h) (headerCmd h) = h := by
  revert h; decide

theorem headerByte_ff {p c : Nibble} : headerByte p c = 0xFF#8 ↔ p = 15#4 ∧ c = 15#4 := by
  revert p c; decide

@[simp] theorem decodeRx_esc : decodeRx 0xDB#8 = .feedEsc := rfl
@[simp] theorem decodeRx_delim : decodeRx 0xC0#8 = .feedDelim := rfl
@[simp] theorem decodeRx_tesc : decodeRx 0xDD#8 = .feedTesc := rfl
@[simp] theorem decodeRx_tdelim : decodeRx 0xDC#8 = .feedTdelim := rfl

theorem decodeRx_other {b : Byte} (h1 : b ≠ 0xC0#8) (h2 : b ≠ 0xDB#8) (h3 : b ≠ 0xDC#8) (h4 : b ≠ 0xDD#8) :
    decodeRx b = .feedOther b := by
  simp [decodeRx, h1, h2, h3, h4]

/-- The class of a received byte is one of five. -/
theorem decodeRx_cases (b : Byte) :
    (b = 0xDB#8 ∧ decodeRx b = .feedEsc) ∨ (b = 0xC0#8 ∧ decodeRx b = .feedDelim) ∨
    (b = 0xDD#8 ∧ decodeRx b = .feedTesc) ∨ (b = 0xDC#8 ∧ decodeRx b = .feedTdelim) ∨
    (b ≠ 0xC0#8 ∧ b ≠ 0xDB#8 ∧ b ≠ 0xDC#8 ∧ b ≠ 0xDD#8 ∧ decodeRx b = .feedOther b) := by
  by_cases h1 : b = 0xC0#8
  · subst h1; simp
  by_cases h2 : b = 0xDB#8
  · subst h2; simp
  by_cases h3 : b = 0xDC#8
  · subst h3; simp
  by_cases h4 : b = 0xDD#8
  · subst h4; simp
  simp [h1, h2, h3, h4, decodeRx_other]

theorem legal_iff (c : Config) : c.legal = true ↔ 2 ≤ c.n ∧ c.myPort ≠ 15#4 ∧ 5 ≤ c.replyCap := by
  simp [Config.legal, and_assoc]

end Sys2Proof
end

