-- ==== Sys2Proof/Laws/Memory.lean ====
section
/-! SUPPORT. The laws of a byte store: read after write, the canonical form, and the bytes below an index. -/

namespace Sys2Proof.Machine

@[simp] theorem read_write_same (m : Memory) (i : Nat) (v : Byte) :
    Memory.read (Memory.write m i v) i = some v := by
  induction m with
  | nil => simp [Memory.write, Memory.read]
  | cons c rest ih =>
    obtain ⟨j, w⟩ := c
    simp only [Memory.write]
    split
    · simp [Memory.read]
    · split
      · simp [Memory.read]
      · next h1 h2 => simp [Memory.read, Ne.symm h2, ih]

theorem read_write_other (m : Memory) {i a : Nat} (v : Byte) (h : a ≠ i) :
    Memory.read (Memory.write m i v) a = Memory.read m a := by
  induction m with
  | nil => simp [Memory.write, Memory.read, Ne.symm h]
  | cons c rest ih =>
    obtain ⟨j, w⟩ := c
    simp only [Memory.write]
    split
    · simp [Memory.read, Ne.symm h]
    · split
      · next h1 h2 => subst h2; simp [Memory.read, Ne.symm h]
      · simp only [Memory.read, ih]

theorem write_index {m : Memory} {i : Nat} {v : Byte} {c : Host.Cell} (h : c ∈ Memory.write m i v) :
    c.1 = i ∨ c ∈ m := by
  induction m with
  | nil => simp only [Memory.write, List.mem_singleton] at h; simp [h]
  | cons d rest ih =>
    obtain ⟨j, w⟩ := d
    simp only [Memory.write] at h
    split at h
    · simp only [List.mem_cons] at h ⊢; rcases h with h | h | h <;> simp [h]
    · split at h
      · simp only [List.mem_cons] at h ⊢; rcases h with h | h <;> simp [h]
      · simp only [List.mem_cons] at h ⊢
        rcases h with h | h
        · simp [h]
        · rcases ih h with h | h <;> simp [h]

/-- A write keeps the canonical form. -/
theorem write_wf {m : Memory} (h : Memory.wf m) (i : Nat) (v : Byte) : Memory.wf (Memory.write m i v) := by
  induction m with
  | nil => simp [Memory.wf, Memory.write]
  | cons d rest ih =>
    obtain ⟨j, w⟩ := d
    obtain ⟨hj, hr⟩ := List.pairwise_cons.1 h
    simp only [Memory.write]
    split
    · next hij =>
      refine List.pairwise_cons.2 ⟨fun c hc => ?_, h⟩
      rcases List.mem_cons.1 hc with rfl | hc
      · exact hij
      · exact lt_trans hij (hj c hc)
    · split
      · next h2 => exact List.pairwise_cons.2 ⟨fun c hc => h2 ▸ hj c hc, hr⟩
      · next h1 h2 =>
        refine List.pairwise_cons.2 ⟨fun c hc => ?_, ih hr⟩
        rcases write_index hc with hc | hc
        · simp only [hc]; omega
        · exact hj c hc

/-- What a store made of a list of bytes holds. -/
theorem read_ofBytes (i : Nat) (bs : List Byte) (a : Nat) :
    Memory.read (Memory.ofBytes i bs) a = if a < i then none else bs[a - i]? := by
  induction bs generalizing i with
  | nil => simp [Memory.ofBytes, Memory.read]
  | cons b rest ih =>
    simp only [Memory.ofBytes, Memory.read, ih]
    by_cases h : i = a
    · simp [h]
    · rcases Nat.lt_or_ge a i with h2 | h2
      · simp [h, h2, Nat.lt_succ_of_lt h2]
      · have h3 : ¬ a < i + 1 := by omega
        have h4 : a - i = (a - (i + 1)) + 1 := by omega
        simp [h, h3, Nat.not_lt.2 h2, h4]

theorem ofBytes_index {i : Nat} {bs : List Byte} {c : Host.Cell} (h : c ∈ Memory.ofBytes i bs) : i ≤ c.1 := by
  induction bs generalizing i with
  | nil => simp [Memory.ofBytes] at h
  | cons b rest ih =>
    simp only [Memory.ofBytes, List.mem_cons] at h
    rcases h with rfl | h
    · exact Nat.le_refl _
    · exact Nat.le_of_succ_le (ih h)

theorem ofBytes_wf (i : Nat) (bs : List Byte) : Memory.wf (Memory.ofBytes i bs) := by
  induction bs generalizing i with
  | nil => exact List.Pairwise.nil
  | cons b rest ih => exact List.Pairwise.cons (fun c hc => ofBytes_index hc) (ih (i + 1))

@[simp] theorem bytesBelow_zero (m : Memory) : Memory.bytesBelow m 0 = some [] := rfl

theorem bytesBelow_succ (m : Memory) (n : Nat) :
    Memory.bytesBelow m (n + 1) =
      match Memory.bytesBelow m n, Memory.read m n with
      | some bs, some b => some (bs ++ [b])
      | _, _ => none := rfl

/-- A write at or above `n` changes no byte below `n`. -/
theorem bytesBelow_write (m : Memory) {i n : Nat} (v : Byte) (h : n ≤ i) :
    Memory.bytesBelow (Memory.write m i v) n = Memory.bytesBelow m n := by
  induction n with
  | zero => rfl
  | succ k ih =>
    rw [bytesBelow_succ, bytesBelow_succ, ih (by omega), read_write_other m v (by omega)]

/-- Writing the next byte extends the bytes below by it. -/
theorem bytesBelow_write_next {m : Memory} {n : Nat} {bs : List Byte} (v : Byte)
    (h : Memory.bytesBelow m n = some bs) :
    Memory.bytesBelow (Memory.write m n v) (n + 1) = some (bs ++ [v]) := by
  rw [bytesBelow_succ, bytesBelow_write m v (le_refl n), h, read_write_same]

theorem bytesBelow_length {m : Memory} {n : Nat} {bs : List Byte} (h : Memory.bytesBelow m n = some bs) :
    bs.length = n := by
  induction n generalizing bs with
  | zero => simp at h; simp [h]
  | succ k ih =>
    rw [bytesBelow_succ] at h
    split at h
    · next bs' b h1 h2 =>
      simp only [Option.some.injEq] at h
      simp [← h, ih h1]
    · simp at h

end Sys2Proof.Machine
end

