-- ==== Sys2Proof/Laws/Ops.lean ====
section
/-! SUPPORT. What the instance check, the command buffer, DISPATCH and APPEND can do, each said once. -/

namespace Sys2Proof.Machine

theorem onInstance_legal {s : State} (h : s.cfg.legal = true) (r : Result) : onInstance s r = r := by
  simp [onInstance, h]

theorem onInstance_illegal {s : State} (h : s.cfg.legal = false) (r : Result) :
    onInstance s r = .refused .illegalConfiguration := by
  simp [onInstance, h]

theorem onInstance_next {s t : State} {r : Result} :
    onInstance s r = .next t ↔ s.cfg.legal = true ∧ r = .next t := by
  cases h : s.cfg.legal <;> simp [onInstance, h]

theorem andThen_next {r : Result} {f : State → Result} {t : State} :
    andThen r f = .next t ↔ ∃ u, r = .next u ∧ f u = .next t := by
  cases r <;> simp [andThen]

@[simp] theorem andThen_of_next (s : State) (f : State → Result) : andThen (.next s) f = f s := rfl

theorem andThen_assoc (r : Result) (f g : State → Result) :
    andThen (andThen r f) g = andThen r (fun s => andThen (f s) g) := by
  cases r <;> rfl

theorem onCommand_next {s t : State} {f : List Byte → State → State} :
    onCommand s f = .next t ↔ s.cfg.legal = true ∧ ∃ cb, commandBuffer s = some cb ∧ f cb s = t := by
  simp only [onCommand, onInstance_next]
  cases commandBuffer s <;> simp

/-- The command buffer depends on `CB` and `len` alone. -/
theorem commandBuffer_congr {s t : State} (h1 : t.cb = s.cb) (h2 : t.len = s.len) :
    commandBuffer t = commandBuffer s := by
  simp [commandBuffer, h1, h2]

@[simp] theorem commandBuffer_emit (e : Event) (s : State) : commandBuffer (emit e s) = commandBuffer s := rfl
@[simp] theorem commandBuffer_record (k : Condition) (s : State) : commandBuffer (record k s) = commandBuffer s := rfl
@[simp] theorem commandBuffer_logRouted (b : List Byte) (s : State) :
    commandBuffer (logRouted b s) = commandBuffer s := rfl
@[simp] theorem commandBuffer_setEsc (v : Bool) (s : State) : commandBuffer (setEsc v s) = commandBuffer s := rfl
@[simp] theorem commandBuffer_setLen_zero (s : State) : commandBuffer (setLen 0 s) = some [] := rfl

/-- Storing a byte extends the frame in progress by it. -/
theorem commandBuffer_storeCb {s : State} {cb : List Byte} (v : Byte) (h : commandBuffer s = some cb) :
    commandBuffer (storeCb v s) = some (cb ++ [v]) := bytesBelow_write_next v h

theorem commandBuffer_length {s : State} {cb : List Byte} (h : commandBuffer s = some cb) : cb.length = s.len :=
  bytesBelow_length h

/-- Storing a byte keeps the canonical form of `CB`. -/
theorem storeCb_wf {s : State} (h : Memory.wf s.cb) (v : Byte) : Memory.wf (storeCb v s).cb := write_wf h _ _

/-- What the buffer of an encode request holds before the encoder writes (20_memory.md R57). -/
theorem supplyBuffer_read (ob : List Byte) (cap : Nat) (s : State) (a : Nat) :
    Memory.read (supplyBuffer ob cap s).out.mem a = if a < cap then ob[a]? else none := by
  simp [supplyBuffer, setOut, read_ofBytes, List.getElem?_take]

/-- The byte stores of the reset state are in canonical form. -/
theorem reset_wf : Memory.wf State.reset.cb ∧ Memory.wf State.reset.out.mem := ⟨List.Pairwise.nil, List.Pairwise.nil⟩

/-- DISPATCH with the command buffer held (41_deframer.md R120). -/
theorem dispatch_of_held {s : State} {cb : List Byte} (h : commandBuffer s = some cb) :
    dispatch s = .next (setEsc false (setLen 0 (route cb (logRouted cb s)))) := by
  simp [dispatch, h]

/-- Everything DISPATCH can do. -/
theorem dispatch_next {s t : State} :
    dispatch s = .next t ↔
      ∃ cb, commandBuffer s = some cb ∧ t = setEsc false (setLen 0 (route cb (logRouted cb s))) := by
  cases h : commandBuffer s <;> simp [dispatch, h, eq_comm]

/-- APPEND below the capacity limit. -/
theorem append_below {s : State} (v : Byte) (h : s.len + 2 < s.cfg.n) : append v s = .next (storeCb v s) := by
  have h1 : s.len < s.cfg.n := by omega
  have h2 : ¬ s.len + 1 = s.cfg.n - 1 := by omega
  simp [append, h1, h2]

/-- APPEND at the capacity limit: the forced dispatch (41_deframer.md R121). -/
theorem append_forced {s : State} {cb : List Byte} (v : Byte) (h : s.len + 2 = s.cfg.n)
    (hc : commandBuffer s = some cb) :
    append v s = .next (setEsc false (setLen 0 (route (cb ++ [v])
      (logRouted (cb ++ [v]) (record .overflowTrunc (storeCb v s)))))) := by
  have h1 : s.len < s.cfg.n := by omega
  have h2 : s.len + 1 = s.cfg.n - 1 := by omega
  have h3 : commandBuffer (record .overflowTrunc (storeCb v s)) = some (cb ++ [v]) := commandBuffer_storeCb v hc
  simp [append, h1, h2, dispatch_of_held h3]

/-- Everything APPEND can do. -/
theorem append_next {s t : State} {v : Byte} (h : append v s = .next t) :
    t = storeCb v s ∨
    ∃ cb, commandBuffer (storeCb v s) = some cb ∧
      t = setEsc false (setLen 0 (route cb (logRouted cb (record .overflowTrunc (storeCb v s))))) := by
  unfold append at h
  split at h
  · split at h
    · obtain ⟨cb, hc, ht⟩ := dispatch_next.1 h
      exact .inr ⟨cb, hc, ht⟩
    · left; injection h with h; exact h.symm
  · cases h

end Sys2Proof.Machine
end

