-- ==== Sys2Proof/Laws/Encoder.lean ====
section
/-! SUPPORT. What the Frame Encoder writes. -/

namespace Sys2Proof.Machine

@[simp] theorem putByte_olen (b : Byte) (o : OutBuf) : (putByte b o).olen = o.olen + 1 := rfl
@[simp] theorem putByte_cap (b : Byte) (o : OutBuf) : (putByte b o).cap = o.cap := rfl
@[simp] theorem putByte_mem (b : Byte) (o : OutBuf) : (putByte b o).mem = Memory.write o.mem o.olen b := rfl

/-- `o'` is `o` with the bytes `bs` written at its position, and nothing else. -/
structure Wrote (o o' : OutBuf) (bs : List Byte) : Prop where
  cap : o'.cap = o.cap
  olen : o'.olen = o.olen + bs.length
  bytes : ∀ xs, Memory.bytesBelow o.mem o.olen = some xs → Memory.bytesBelow o'.mem o'.olen = some (xs ++ bs)
  other : ∀ a, a < o.olen ∨ o.olen + bs.length ≤ a → Memory.read o'.mem a = Memory.read o.mem a
  wf : Memory.wf o.mem → Memory.wf o'.mem

theorem Wrote.refl (o : OutBuf) : Wrote o o [] :=
  ⟨rfl, rfl, fun xs h => by simpa using h, fun _ _ => rfl, id⟩

theorem Wrote.trans {o o' o'' : OutBuf} {bs cs : List Byte} (h : Wrote o o' bs) (h' : Wrote o' o'' cs) :
    Wrote o o'' (bs ++ cs) where
  cap := by rw [h'.cap, h.cap]
  olen := by rw [h'.olen, h.olen, List.length_append]; omega
  bytes xs hx := by rw [h'.bytes _ (h.bytes xs hx), List.append_assoc]
  other a ha := by
    have hl := h.olen
    rw [List.length_append] at ha
    rw [h'.other a (by omega), h.other a (by omega)]
  wf hw := h'.wf (h.wf hw)

theorem wrote_putByte (b : Byte) (o : OutBuf) : Wrote o (putByte b o) [b] where
  cap := rfl
  olen := rfl
  bytes _ hx := bytesBelow_write_next b hx
  other a ha := read_write_other _ _ (by simp at ha; omega)
  wf hw := write_wf hw _ _

/-- One payload byte writes its stuffed form. -/
theorem wrote_putPayloadByte (b : Byte) (o : OutBuf) : Wrote o (putPayloadByte b o) (stuffByte b) := by
  unfold putPayloadByte stuffByte
  split
  · exact (wrote_putByte _ _).trans (wrote_putByte _ _)
  · split
    · exact (wrote_putByte _ _).trans (wrote_putByte _ _)
    · exact wrote_putByte _ _

theorem stuff_cons (b : Byte) (p : List Byte) : stuff (b :: p) = stuffByte b ++ stuff p := by simp [stuff]

theorem stuffByte_length (b : Byte) :
    (stuffByte b).length = 1 + if (decide (b = delimByte) || decide (b = escByte)) = true then 1 else 0 := by
  unfold stuffByte
  by_cases h1 : b = delimByte
  · simp [h1]
  · by_cases h2 : b = escByte
    · subst h2; rfl
    · simp [h1, h2]

theorem stuff_length (p : List Byte) : (stuff p).length = p.length + escapedCount p := by
  induction p with
  | nil => rfl
  | cons b rest ih =>
    rw [stuff_cons, List.length_append, ih, stuffByte_length]
    simp only [escapedCount, List.countP_cons, List.length_cons]
    omega

theorem escapedCount_le (p : List Byte) : escapedCount p ≤ p.length := List.countP_le_length

/-- Everything a payload row can do: write at the position if there is room, else record ENC_TRUNC. -/
theorem consumePayload_cases (s : State) (w : OutBuf → OutBuf) :
    (hasRoom s.out = true ∧ consumePayload s w = setOut (w s.out) s) ∨
    (hasRoom s.out = false ∧ consumePayload s w = record .encTrunc s) := by
  cases h : hasRoom s.out
  · exact .inr ⟨rfl, by simp [consumePayload, h]⟩
  · exact .inl ⟨rfl, by simp [consumePayload, h]⟩

/-- The payload loop writes the stuffed form of the longest prefix whose every byte passes the check of R101. -/
theorem putPayload_spec (p : List Byte) (o : OutBuf) :
    ∃ k, k ≤ p.length ∧ Wrote o (putPayload p o).1 (stuff (p.take k)) ∧
      (putPayload p o).2 = decide (k < p.length) ∧
      (∀ j, j < k → 2 ≤ o.cap - (o.olen + (stuff (p.take j)).length) - 1) ∧
      (k < p.length → o.cap - (o.olen + (stuff (p.take k)).length) - 1 < 2) := by
  induction p generalizing o with
  | nil => exact ⟨0, le_refl _, Wrote.refl o, rfl, by omega, by simp⟩
  | cons b rest ih =>
    by_cases hr : hasRoom o
    · have hw := wrote_putPayloadByte b o
      obtain ⟨k, hk, hwk, ht, hin, hout⟩ := ih (putPayloadByte b o)
      have e : putPayload (b :: rest) o = putPayload rest (putPayloadByte b o) := by simp [putPayload, hr]
      refine ⟨k + 1, by simpa using hk, ?_, ?_, ?_, ?_⟩
      · rw [e, List.take_succ_cons, stuff_cons]; exact hw.trans hwk
      · rw [e, ht]; simp
      · intro j hj
        cases j with
        | zero => simpa [stuff, hasRoom] using hr
        | succ j =>
          have := hin j (by omega)
          rw [hw.cap, hw.olen] at this
          rw [List.take_succ_cons, stuff_cons, List.length_append]; omega
      · intro hlt
        have := hout (by simpa using hlt)
        rw [hw.cap, hw.olen] at this
        rw [List.take_succ_cons, stuff_cons, List.length_append]; omega
    · refine ⟨0, by simp, ?_, ?_, by omega, ?_⟩
      · simpa [putPayload, hr, stuff] using Wrote.refl o
      · simp [putPayload, hr]
      · intro _; simp [hasRoom] at hr; simp [stuff]; omega

/-- ENCODE with a capacity of at least 3 (R99). -/
theorem runEncode_spec (c : Config) (cmd : Nibble) (sel : Option Nibble) (p : List Byte) {cap : Nat} (mem : Memory)
    (hcap : 3 ≤ cap) :
    ∃ k, k ≤ p.length ∧
      Wrote { mem := mem, olen := 0, cap := cap } (runEncode c cmd sel p cap mem).1
        (frame (portOf c sel) cmd (p.take k)) ∧
      (runEncode c cmd sel p cap mem).2 = decide (k < p.length) ∧
      (∀ j, j < k → 2 ≤ cap - (2 + j + escapedCount (p.take j)) - 1) ∧
      (k < p.length → cap - (2 + k + escapedCount (p.take k)) - 1 < 2) := by
  obtain ⟨k, hk, hw, ht, hin, hout⟩ := putPayload_spec p
    (putByte (headerByte (portOf c sel) cmd) (putByte delimByte { mem := mem, olen := 0, cap := cap }))
  have h3 : ¬ cap < 3 := by omega
  refine ⟨k, hk, ?_, ?_, ?_, ?_⟩
  · simp only [runEncode, h3, if_false, frame]
    have := (((wrote_putByte delimByte { mem := mem, olen := 0, cap := cap }).trans
      (wrote_putByte (headerByte (portOf c sel) cmd) _)).trans hw).trans (wrote_putByte delimByte _)
    simpa using this
  · simp only [runEncode, h3, if_false, ht]
  · intro j hj
    have := hin j hj
    simp only [putByte_cap, putByte_olen, stuff_length, List.length_take] at this
    omega
  · intro hlt
    have := hout hlt
    simp only [putByte_cap, putByte_olen, stuff_length, List.length_take] at this
    omega

theorem frame_length (port cmd : Nibble) (p : List Byte) :
    (frame port cmd p).length = 3 + p.length + escapedCount p := by
  simp [frame, stuff_length]; omega

/-- One more payload byte is at most one more escaped byte. -/
theorem escapedCount_take_succ (p : List Byte) (j : Nat) :
    escapedCount (p.take (j + 1)) ≤ escapedCount (p.take j) + 1 := by
  have h : escapedCount ((p.drop j).take 1) ≤ 1 := by
    have h1 := escapedCount_le ((p.drop j).take 1)
    simp only [List.length_take] at h1
    omega
  rw [List.take_add]
  simp only [escapedCount, List.countP_append] at h ⊢
  omega

/-- The encoder never writes out of bounds (20_memory.md R57, R101). -/
theorem runEncode_olen_le (c : Config) (cmd : Nibble) (sel : Option Nibble) (p : List Byte) (cap : Nat) (mem : Memory) :
    (runEncode c cmd sel p cap mem).1.olen ≤ cap := by
  by_cases h3 : cap < 3
  · simp [runEncode, h3]
  · obtain ⟨k, hk, hw, -, hin, -⟩ := runEncode_spec c cmd sel p mem (Nat.not_lt.1 h3)
    have hlen := hw.olen
    rw [frame_length, List.length_take, Nat.min_eq_left hk] at hlen
    simp only at hlen
    cases k with
    | zero => simp [escapedCount] at hlen; omega
    | succ j =>
      have h1 := hin j (Nat.lt_succ_self j)
      have h2 := escapedCount_take_succ p j
      omega

/-- The bytes an encode request leaves in its buffer. -/
theorem Wrote.bytesFromZero {mem : Memory} {cap : Nat} {o' : OutBuf} {bs : List Byte}
    (h : Wrote { mem := mem, olen := 0, cap := cap } o' bs) : Memory.bytesBelow o'.mem o'.olen = some bs := by
  simpa using h.bytes [] rfl

/-- The fallback reply of the Vendor Sub-Router for every legal configuration (43_vendor.md R155). -/
theorem vendorReply_spec {c : Config} (h : c.legal = true) :
    (vendorReply c).1.bytes = [0xC0#8, headerByte c.myPort 6#4, 0xFF#8, 0xC0#8] ∧ (vendorReply c).2 = false := by
  have h5 : 5 ≤ c.replyCap := ((legal_iff c).1 h).2.2
  obtain ⟨k, hk, hw, ht, hin, hout⟩ := runEncode_spec c vendorCode none [sentinelByte] (cap := c.replyCap) [] (by omega)
  have hk1 : k = 1 := by
    by_contra hne
    have h0 : k = 0 := by simp at hk; omega
    subst h0
    have := hout (by simp)
    simp [escapedCount] at this
    omega
  subst hk1
  refine ⟨?_, by simpa [vendorReply] using ht⟩
  unfold vendorReply OutBuf.bytes
  rw [hw.bytesFromZero]
  rfl

end Sys2Proof.Machine
end

