-- ==== Sys2Proof/Laws/Router.lean ====
section
/-! SUPPORT. Everything the Command Router and the Vendor Sub-Router can do, said once. -/

namespace Sys2Proof.Machine

/-- The fallback reply as an event (43_vendor.md R155). -/
theorem vendorUnknownEffect_legal {s : State} (h : s.cfg.legal = true) :
    vendorUnknownEffect s =
      emit (.txWrite [0xC0#8, headerByte s.cfg.myPort 6#4, 0xFF#8, 0xC0#8]) (record .unknownVendor s) := by
  obtain ⟨h1, h2⟩ := vendorReply_spec h
  simp [vendorUnknownEffect, h1, h2, recordTrunc]

/-- Everything the own-port case of R133 can do, by command code. -/
theorem routeOwn_cases (cmd : Nibble) (cb : List Byte) (s : State) :
    (cmd = 0#4 ∧ routeOwn cmd cb s = dataEffect cb s) ∨
    (cmd = 1#4 ∧ routeOwn cmd cb s = txDelayEffect cb s) ∨
    (cmd = 6#4 ∧ routeOwn cmd cb s = vendorEffect cb s) ∨
    routeOwn cmd cb s = s ∨ routeOwn cmd cb s = record .undefCmd s := by
  rcases nibble_cases cmd with rfl | rfl | rfl | rfl | rfl | rfl | rfl | rfl | rfl | rfl | rfl | rfl | rfl | rfl | rfl | rfl
  · exact .inl ⟨rfl, rfl⟩
  · exact .inr (.inl ⟨rfl, rfl⟩)
  · exact .inr (.inr (.inr (.inl rfl)))
  · exact .inr (.inr (.inr (.inl rfl)))
  · exact .inr (.inr (.inr (.inl rfl)))
  · exact .inr (.inr (.inr (.inl rfl)))
  · exact .inr (.inr (.inl ⟨rfl, rfl⟩))
  all_goals exact .inr (.inr (.inr (.inr rfl)))

/-- Everything `route` can do. -/
theorem route_cases (cb : List Byte) (s : State) :
    route cb s = s ∨
    (∃ k, (k = .unaddressed ∨ k = .undefCmd) ∧ route cb s = record k s) ∨
    (∃ data, cb = 0xFF#8 :: data ∧ route cb s = returnEffect s) ∨
    (∃ data, data ≠ [] ∧ cb = headerByte s.cfg.myPort 0#4 :: data ∧
      route cb s = emit (.submit data s.cfg.dataPriority s.txdelay) s) ∨
    (∃ data, data ≠ [] ∧ cb = headerByte s.cfg.myPort 1#4 :: data ∧
      route cb s = setTxdelay (txdelayParse s.cfg data * 10#32) s) ∨
    (∃ sub rest, cb = headerByte s.cfg.myPort 6#4 :: sub :: rest ∧ sub ≠ 0x01#8 ∧ sub ≠ 0x80#8 ∧
      route cb s = vendorUnknownEffect s) := by
  cases cb with
  | nil => exact .inl rfl
  | cons h data =>
    have hf := headerByte_fields h
    by_cases h1 : headerPort h = globalPort ∧ headerCmd h = returnCode
    · refine .inr (.inr (.inl ⟨data, ?_, by simp [route, h1]⟩))
      rw [h1.1, h1.2] at hf
      rw [← hf]; rfl
    · by_cases h2 : headerPort h ≠ s.cfg.myPort
      · refine .inr (.inl ⟨.unaddressed, .inl rfl, ?_⟩)
        simp only [route, h1, h2, if_false, if_true, not_false_eq_true, ne_eq]
        split <;> rfl
      · have h2' : headerPort h = s.cfg.myPort := by simpa using h2
        have hr : route (h :: data) s = routeOwn (headerCmd h) (h :: data) s := by
          simp only [route, h1, h2, if_false]
        rw [h2'] at hf
        rcases routeOwn_cases (headerCmd h) (h :: data) s with ⟨hc, e⟩ | ⟨hc, e⟩ | ⟨hc, e⟩ | e | e
        · rw [hc] at hf
          cases data with
          | nil => left; rw [hr, e]; rfl
          | cons d ds => exact .inr (.inr (.inr (.inl ⟨d :: ds, by simp, by rw [hf], by rw [hr, e]; rfl⟩)))
        · rw [hc] at hf
          cases data with
          | nil => left; rw [hr, e]; rfl
          | cons d ds =>
            exact .inr (.inr (.inr (.inr (.inl ⟨d :: ds, by simp, by rw [hf], by rw [hr, e]; simp [txDelayEffect, commandData]⟩))))
        · rw [hc] at hf
          cases data with
          | nil => left; rw [hr, e]; rfl
          | cons d ds =>
            have hv : vendorEffect (h :: d :: ds) s = routeVendor (d :: ds) s := rfl
            by_cases d1 : d = 0x01#8
            · left; rw [hr, e, hv]; simp [routeVendor, d1, getRadioStatsEffect]
            · by_cases d2 : d = 0x80#8
              · left; rw [hr, e, hv, d2]; rfl
              · refine .inr (.inr (.inr (.inr (.inr ⟨d, ds, by rw [hf], d1, d2, ?_⟩))))
                rw [hr, e, hv]; simp [routeVendor, d1, d2]
        · left; rw [hr, e]
        · exact .inr (.inl ⟨.undefCmd, .inr rfl, by rw [hr, e]⟩)

theorem vendorUnknownEffect_frame (s : State) :
    (vendorUnknownEffect s).cfg = s.cfg ∧ (vendorUnknownEffect s).inputs = s.inputs ∧
    (vendorUnknownEffect s).cb = s.cb ∧ (vendorUnknownEffect s).out = s.out ∧
    (vendorUnknownEffect s).routed = s.routed ∧ (vendorUnknownEffect s).txdelay = s.txdelay ∧
    (vendorUnknownEffect s).len = s.len ∧ (vendorUnknownEffect s).esc = s.esc ∧
    (vendorUnknownEffect s).mode = s.mode ∧ (vendorUnknownEffect s).returnInRead = s.returnInRead := by
  cases h : (vendorReply s.cfg).2 <;> simp [vendorUnknownEffect, recordTrunc, h]

/-- What `route` never writes (42_router.md R130). -/
theorem route_frame (cb : List Byte) (s : State) :
    (route cb s).cfg = s.cfg ∧ (route cb s).inputs = s.inputs ∧ (route cb s).cb = s.cb ∧
    (route cb s).out = s.out ∧ (route cb s).routed = s.routed := by
  rcases route_cases cb s with e | ⟨k, -, e⟩ | ⟨_, -, e⟩ | ⟨_, -, -, e⟩ | ⟨_, -, -, e⟩ | ⟨_, _, -, -, -, e⟩
  case inr.inr.inr.inr.inr =>
    rw [e]
    obtain ⟨h1, h2, h3, h4, h5, -⟩ := vendorUnknownEffect_frame s
    exact ⟨h1, h2, h3, h4, h5⟩
  all_goals rw [e]; simp [returnEffect]

@[simp] theorem route_cfg (cb : List Byte) (s : State) : (route cb s).cfg = s.cfg := (route_frame cb s).1
@[simp] theorem route_inputs (cb : List Byte) (s : State) : (route cb s).inputs = s.inputs := (route_frame cb s).2.1
@[simp] theorem route_cb (cb : List Byte) (s : State) : (route cb s).cb = s.cb := (route_frame cb s).2.2.1
@[simp] theorem route_out (cb : List Byte) (s : State) : (route cb s).out = s.out := (route_frame cb s).2.2.2.1
@[simp] theorem route_routed (cb : List Byte) (s : State) : (route cb s).routed = s.routed :=
  (route_frame cb s).2.2.2.2

/-- The conditions `route` adds are no framing conditions (60_exceptions.md R172). -/
theorem route_conds (cb : List Byte) (s : State) :
    ∃ ks, (route cb s).conds = s.conds ++ ks ∧ ∀ k ∈ ks, isFraming k = false := by
  rcases route_cases cb s with e | ⟨k, hk, e⟩ | ⟨_, -, e⟩ | ⟨_, -, -, e⟩ | ⟨_, -, -, e⟩ | ⟨_, _, -, -, -, e⟩ <;> rw [e]
  · exact ⟨[], by simp⟩
  · exact ⟨[k], rfl, by rcases hk with rfl | rfl <;> simp [isFraming, conditionCode]⟩
  · exact ⟨[], by simp [returnEffect]⟩
  · exact ⟨[], by simp⟩
  · exact ⟨[], by simp⟩
  · unfold vendorUnknownEffect
    cases h : (vendorReply s.cfg).2
    · exact ⟨[.unknownVendor], by simp [recordTrunc, h], by simp [isFraming, conditionCode]⟩
    · exact ⟨[.unknownVendor, .encTrunc], by simp [recordTrunc, h], by simp [isFraming, conditionCode]⟩

/-- `route` adds at most one event (10_state.md R48). -/
theorem route_events (cb : List Byte) (s : State) :
    ∃ es, (route cb s).events = s.events ++ es ∧ es.length ≤ 1 := by
  rcases route_cases cb s with e | ⟨k, -, e⟩ | ⟨_, -, e⟩ | ⟨_, -, -, e⟩ | ⟨_, -, -, e⟩ | ⟨_, _, -, -, -, e⟩ <;> rw [e]
  · exact ⟨[], by simp, by simp⟩
  · exact ⟨[], by simp, by simp⟩
  · exact ⟨[_], rfl, by simp⟩
  · exact ⟨[_], rfl, by simp⟩
  · exact ⟨[], by simp, by simp⟩
  · unfold vendorUnknownEffect
    cases h : (vendorReply s.cfg).2 <;>
      exact ⟨[.txWrite (vendorReply s.cfg).1.bytes], by simp [h, recordTrunc], by simp⟩

theorem addressed_own (s : State) (f : State → State) : addressed s.cfg.myPort f s = f s := by simp [addressed]

theorem onCommand_of_held {s : State} {cb : List Byte} (hl : s.cfg.legal = true) (hc : commandBuffer s = some cb)
    (f : List Byte → State → State) : onCommand s f = .next (f cb s) := by
  simp [onCommand, onInstance_legal hl, hc]

/-- The routing decision is the header decoder followed by the row's own operation. -/
theorem exec_decodeHeader {s : State} {h : Byte} {data : List Byte} (hl : s.cfg.legal = true)
    (hc : commandBuffer s = some (h :: data)) :
    exec (decodeHeader s.cfg.myPort h) s = .next (route (h :: data) s) := by
  by_cases h1 : headerPort h = globalPort ∧ headerCmd h = returnCode
  · simp only [decodeHeader, route, h1, if_true, and_self]
    exact onInstance_legal hl _
  · by_cases h2 : headerPort h = s.cfg.myPort
    · have hr : route (h :: data) s = routeOwn (headerCmd h) (h :: data) s := by
        simp only [route]; rw [if_neg h1, if_neg (by simpa using h2)]
      have hd : decodeHeader s.cfg.myPort h = ownCommand (headerPort h) (headerCmd h) := by
        unfold decodeHeader; rw [if_neg h1, if_neg (by simpa using h2)]
      rw [hr, hd, h2]
      rcases nibble_cases (headerCmd h) with
        e | e | e | e | e | e | e | e | e | e | e | e | e | e | e | e <;> rw [e]
      case inl | inr.inl | inr.inr.inr.inr.inr.inr.inl =>
        show onCommand s _ = _
        rw [onCommand_of_held hl hc, addressed_own]; rfl
      all_goals
        show onInstance s _ = _
        rw [onInstance_legal hl, addressed_own]; rfl
    · by_cases h3 : headerPort h = globalPort
      · have h4 : headerCmd h ≠ returnCode := fun h4 => h1 ⟨h3, h4⟩
        have h5 : globalPort ≠ s.cfg.myPort := h3 ▸ h2
        simp only [decodeHeader, route, h3, h4, h5, if_true, if_false, ne_eq, not_false_eq_true, and_false]
        exact onInstance_legal hl _
      · simp only [decodeHeader, route, h2, h3, if_true, if_false, ne_eq, not_false_eq_true]
        exact onInstance_legal hl _

theorem onInstance_next_eq {s t x : State} (h : onInstance s (.next x) = .next t) : t = x := by
  obtain ⟨-, h⟩ := onInstance_next.1 h
  injection h with h; exact h.symm

theorem addressed_cases (p : Nibble) (f : State → State) (s : State) :
    addressed p f s = f s ∨ addressed p f s = record .unaddressed s := by
  unfold addressed; split
  · exact .inl rfl
  · exact .inr rfl

/-- Everything a header or vendor row can do as an operation. -/
theorem headerRow_cases {i : Instr} {s t : State} (hf : formatOf i = .header8 ∨ formatOf i = .vendorSubcmd8)
    (h : exec i s = .next t) :
    t = s ∨ (∃ k, t = record k s) ∨ (i = .returnCli ∧ t = returnEffect s) ∨
    ((∃ p, i = .data p) ∧ ∃ e, t = emit e s) ∨ ((∃ p, i = .txDelay p) ∧ ∃ v, t = setTxdelay v s) ∨
    (((∃ p, i = .vendor p) ∨ ∃ b, i = .vendorUnknown b) ∧ t = vendorUnknownEffect s) := by
  cases i with
  | returnCli => exact .inr (.inr (.inl ⟨rfl, onInstance_next_eq h⟩))
  | unaddressed p c => exact .inr (.inl ⟨_, onInstance_next_eq h⟩)
  | globalOther c => exact .inr (.inl ⟨_, onInstance_next_eq h⟩)
  | data p =>
    obtain ⟨-, cb, -, h⟩ := onCommand_next.1 h
    rcases addressed_cases p (dataEffect cb) s with e | e <;> simp only [e] at h
    · unfold dataEffect at h; split at h
      · exact .inl h.symm
      · exact .inr (.inr (.inr (.inl ⟨⟨p, rfl⟩, _, h.symm⟩)))
    · exact .inr (.inl ⟨_, h.symm⟩)
  | txDelay p =>
    obtain ⟨-, cb, -, h⟩ := onCommand_next.1 h
    rcases addressed_cases p (txDelayEffect cb) s with e | e <;> simp only [e] at h
    · unfold txDelayEffect at h; split at h
      · exact .inr (.inr (.inr (.inr (.inl ⟨⟨p, rfl⟩, _, h.symm⟩))))
      · exact .inl h.symm
    · exact .inr (.inl ⟨_, h.symm⟩)
  | vendor p =>
    obtain ⟨-, cb, -, h⟩ := onCommand_next.1 h
    rcases addressed_cases p (vendorEffect cb) s with e | e <;> simp only [e] at h
    · unfold vendorEffect routeVendor at h
      repeat' split at h
      all_goals first
        | exact .inl h.symm
        | exact .inr (.inr (.inr (.inr (.inr ⟨.inl ⟨p, rfl⟩, h.symm⟩))))
    · exact .inr (.inl ⟨_, h.symm⟩)
  | getRadioStats => exact .inl (onInstance_next_eq h)
  | signalReporting => exact .inl (onInstance_next_eq h)
  | vendorUnknown b => exact .inr (.inr (.inr (.inr (.inr ⟨.inr ⟨b, rfl⟩, onInstance_next_eq h⟩))))
  | persist p | slotTime p | txTail p | fullDuplex p =>
    rcases addressed_cases p (fun s => s) s with e | e
    · exact .inl ((onInstance_next_eq h).trans e)
    · exact .inr (.inl ⟨_, (onInstance_next_eq h).trans e⟩)
  | cmdUndef7 p | cmdUndef8 p | cmdUndef9 p | cmdUndef10 p | cmdUndef11 p | cmdUndef12 p | cmdUndef13 p
  | cmdUndef14 p | cmdReturnLocal p =>
    rcases addressed_cases p undefinedEffect s with e | e
    · exact .inr (.inl ⟨_, (onInstance_next_eq h).trans e⟩)
    · exact .inr (.inl ⟨_, (onInstance_next_eq h).trans e⟩)
  | _ => simp [formatOf] at hf

end Sys2Proof.Machine
end

