-- ==== Sys2Proof/Laws/Deframer.lean ====
section
/-! SUPPORT. Everything a FEED operation can do, said once. -/

namespace Sys2Proof.Machine

theorem setEsc_self {s : State} {v : Bool} (h : s.esc = v) : setEsc v s = s := by
  cases s; simp only at h; subst h; rfl

theorem setEsc_setEsc (v w : Bool) (s : State) : setEsc v (setEsc w s) = setEsc v s := rfl

/-- The byte that FEED_TESC, FEED_TDELIM and an unescaped FEED_OTHER append, with the escape cleared. -/
theorem feedTransposed_eq (d l : Byte) (s : State) :
    feedTransposed d l s = append (if s.esc then d else l) (setEsc false s) := by
  cases h : s.esc
  · simp [feedTransposed, h, setEsc_self h]
  · simp [feedTransposed, h]

/-- FEED changes only the flag, the length and the condition trace: no byte is stored and no buffer is routed. -/
def Quiet (s t : State) : Prop :=
  ∃ n e ks, (n = s.len ∨ n = 0) ∧ (ks = [] ∨ ks = [.doubleEsc] ∨ ks = [.unknownEsc]) ∧
    t = { s with len := n, esc := e, conds := s.conds ++ ks }

/-- DISPATCH of the command buffer of `s1`. -/
def Dispatched (s1 t : State) : Prop :=
  ∃ cb, commandBuffer s1 = some cb ∧ t = setEsc false (setLen 0 (route cb (logRouted cb s1)))

/-- Everything APPEND can do, seen from FEED. -/
theorem append_feed {s t : State} {v : Byte} (h : append v s = .next t) :
    t = storeCb v s ∨ Dispatched (record .overflowTrunc (storeCb v s)) t := append_next h

/-- Everything a FEED operation can do: a quiet change, a stored byte, a dispatch at a delimiter, or a forced
dispatch. -/
theorem feed_cases {i : Instr} {s t : State} (hf : formatOf i = .rxByte) (h : exec i s = .next t) :
    s.cfg.legal = true ∧
    (Quiet s t ∨ (∃ v, t = storeCb v (setEsc false s)) ∨
      (i = .feedDelim ∧ 0 < s.len ∧ Dispatched (setEsc false (recordEscAtDelim s)) t) ∨
      (∃ v, Dispatched (record .overflowTrunc (storeCb v (setEsc false s))) t)) := by
  cases i with
  | feedEsc =>
    obtain ⟨hl, h⟩ := onInstance_next.1 h
    refine ⟨hl, .inl ?_⟩
    injection h with h; subst h
    cases he : s.esc
    · exact ⟨s.len, true, [], .inl rfl, .inl rfl, by simp [feedEscEffect, he, setEsc]⟩
    · exact ⟨0, false, [.doubleEsc], .inr rfl, .inr (.inl rfl), by simp [feedEscEffect, he, setEsc, setLen, record]⟩
  | feedDelim =>
    obtain ⟨hl, h⟩ := onInstance_next.1 h
    refine ⟨hl, ?_⟩
    unfold feedDelimEffect at h
    split at h
    · next hp => exact .inr (.inr (.inl ⟨rfl, hp, dispatch_next.1 h⟩))
    · injection h with h; subst h
      left
      split
      · exact ⟨s.len, false, [], .inl rfl, .inl rfl, by simp [setEsc]⟩
      · exact ⟨s.len, s.esc, [], .inl rfl, .inl rfl, by simp⟩
  | feedTesc =>
    obtain ⟨hl, h⟩ := onInstance_next.1 h
    rw [feedTransposed_eq] at h
    refine ⟨hl, ?_⟩
    rcases append_feed h with h | h
    · exact .inr (.inl ⟨_, h⟩)
    · exact .inr (.inr (.inr ⟨_, h⟩))
  | feedTdelim =>
    obtain ⟨hl, h⟩ := onInstance_next.1 h
    rw [feedTransposed_eq] at h
    refine ⟨hl, ?_⟩
    rcases append_feed h with h | h
    · exact .inr (.inl ⟨_, h⟩)
    · exact .inr (.inr (.inr ⟨_, h⟩))
  | feedOther b =>
    obtain ⟨hl, h⟩ := onInstance_next.1 h
    refine ⟨hl, ?_⟩
    unfold feedOtherEffect at h
    split at h
    · injection h with h; subst h
      exact .inl ⟨s.len, false, [.unknownEsc], .inl rfl, .inr (.inr rfl), by simp [setEsc, record]⟩
    · next he =>
      have he' : s.esc = false := by simpa using he
      rw [← setEsc_self he'] at h
      rcases append_feed h with h | h
      · exact .inr (.inl ⟨_, h⟩)
      · exact .inr (.inr (.inr ⟨_, h⟩))
  | _ => simp [formatOf] at hf

@[simp] theorem formatOf_decodeRx (b : Byte) : formatOf (decodeRx b) = .rxByte := by
  rcases decodeRx_cases b with ⟨-, h⟩ | ⟨-, h⟩ | ⟨-, h⟩ | ⟨-, h⟩ | ⟨-, -, -, -, h⟩ <;> rw [h] <;> rfl

/-- What a dispatch leaves unchanged. -/
theorem Dispatched.frame {s1 t : State} (h : Dispatched s1 t) :
    t.cfg = s1.cfg ∧ t.inputs = s1.inputs ∧ t.cb = s1.cb ∧ t.out = s1.out ∧ t.len = 0 ∧ t.esc = false := by
  obtain ⟨cb, -, rfl⟩ := h
  simp

/-- What no FEED operation writes. -/
theorem feed_frame {i : Instr} {s t : State} (hf : formatOf i = .rxByte) (h : exec i s = .next t) :
    t.cfg = s.cfg ∧ t.inputs = s.inputs ∧ t.out = s.out ∧
      ∀ a, a ≠ s.len → Memory.read t.cb a = Memory.read s.cb a := by
  obtain ⟨-, ⟨n, e, ks, -, -, rfl⟩ | ⟨v, rfl⟩ | ⟨-, -, hd⟩ | ⟨v, hd⟩⟩ := feed_cases hf h
  · simp
  · exact ⟨rfl, rfl, rfl, fun a ha => read_write_other _ _ ha⟩
  · obtain ⟨h1, h2, h3, h4, -⟩ := hd.frame
    cases he : s.esc <;> simp [recordEscAtDelim, he] at h1 h2 h3 h4 <;> simp [h1, h2, h3, h4]
  · obtain ⟨h1, h2, h3, h4, -⟩ := hd.frame
    exact ⟨h1, h2, h4, fun a ha => by rw [h3]; exact read_write_other _ _ ha⟩

end Sys2Proof.Machine
end

