-- ==== Sys2Proof/Laws/PerInstr.lean ====
section
/-! SUPPORT. Statements for all operations, one lemma per constructor (LAWS.json names the families). -/

namespace Sys2Proof.Laws.OneByte

/-- Every operation that is a byte pattern is encoded in one byte (spec/opcode_table.json: each row has 8 bits). -/
def Statement (i : Instr) : Prop := formatOf i ≠ .encRequest → (encode i).length = 1

theorem feedEsc : Statement .feedEsc := fun _ => rfl
theorem feedDelim : Statement .feedDelim := fun _ => rfl
theorem feedTesc : Statement .feedTesc := fun _ => rfl
theorem feedTdelim : Statement .feedTdelim := fun _ => rfl
theorem feedOther (b : Byte) : Statement (.feedOther b) := fun _ => rfl
theorem encodeReq (c : Nibble) (p : Option Nibble) (l : List Byte) (n : Nat) : Statement (.encodeReq c p l n) := fun h => absurd rfl h
theorem encStuffDelim : Statement .encStuffDelim := fun _ => rfl
theorem encStuffEsc : Statement .encStuffEsc := fun _ => rfl
theorem encLiteral (b : Byte) : Statement (.encLiteral b) := fun _ => rfl
theorem returnCli : Statement .returnCli := fun _ => rfl
theorem unaddressed (p : Nibble) (c : Nibble) : Statement (.unaddressed p c) := fun _ => rfl
theorem globalOther (c : Nibble) : Statement (.globalOther c) := fun _ => rfl
theorem data (p : Nibble) : Statement (.data p) := fun _ => rfl
theorem txDelay (p : Nibble) : Statement (.txDelay p) := fun _ => rfl
theorem persist (p : Nibble) : Statement (.persist p) := fun _ => rfl
theorem slotTime (p : Nibble) : Statement (.slotTime p) := fun _ => rfl
theorem txTail (p : Nibble) : Statement (.txTail p) := fun _ => rfl
theorem fullDuplex (p : Nibble) : Statement (.fullDuplex p) := fun _ => rfl
theorem vendor (p : Nibble) : Statement (.vendor p) := fun _ => rfl
theorem cmdUndef7 (p : Nibble) : Statement (.cmdUndef7 p) := fun _ => rfl
theorem cmdUndef8 (p : Nibble) : Statement (.cmdUndef8 p) := fun _ => rfl
theorem cmdUndef9 (p : Nibble) : Statement (.cmdUndef9 p) := fun _ => rfl
theorem cmdUndef10 (p : Nibble) : Statement (.cmdUndef10 p) := fun _ => rfl
theorem cmdUndef11 (p : Nibble) : Statement (.cmdUndef11 p) := fun _ => rfl
theorem cmdUndef12 (p : Nibble) : Statement (.cmdUndef12 p) := fun _ => rfl
theorem cmdUndef13 (p : Nibble) : Statement (.cmdUndef13 p) := fun _ => rfl
theorem cmdUndef14 (p : Nibble) : Statement (.cmdUndef14 p) := fun _ => rfl
theorem cmdReturnLocal (p : Nibble) : Statement (.cmdReturnLocal p) := fun _ => rfl
theorem getRadioStats : Statement .getRadioStats := fun _ => rfl
theorem signalReporting : Statement .signalReporting := fun _ => rfl
theorem vendorUnknown (b : Byte) : Statement (.vendorUnknown b) := fun _ => rfl

end Sys2Proof.Laws.OneByte
end

