-- ==== Sys2Proof/Laws/Step.lean ====
section
/-! SUPPORT. Everything a step can do, said once; and runs of received bytes. -/

namespace Sys2Proof.Machine

/-- Everything a step can do: idle, feed a byte, leave a byte to the host, serve an encode request, take a host write of
the mode flag. -/
theorem step_cases {s t : State} (h : step s = .next t) :
    s.cfg.legal = true ∧
    ((s.inputs = [] ∧ t = s) ∨
     (∃ b f rest, s.inputs = .byte b f :: rest ∧
        ((gateOpen (takeInput f rest s) = true ∧ exec (decodeRx b) (takeInput f rest s) = .next t) ∨
         (gateOpen (takeInput f rest s) = false ∧ t = takeInput f rest s))) ∨
     (∃ cmd sel p cap ob rest, s.inputs = .encode cmd sel p cap ob :: rest ∧
        exec (.encodeReq cmd sel p cap) (supplyBuffer ob cap (takeInput false rest s)) = .next t) ∨
     (∃ m rest, s.inputs = .hostMode m :: rest ∧ t = setMode m (takeInput false rest s))) := by
  obtain ⟨hl, h⟩ := onInstance_next.1 h
  refine ⟨hl, ?_⟩
  cases hi : s.inputs with
  | nil => rw [hi] at h; injection h with h; exact .inl ⟨rfl, h.symm⟩
  | cons x rest =>
    rw [hi] at h
    cases x with
    | byte b f =>
      refine .inr (.inl ⟨b, f, rest, rfl, ?_⟩)
      simp only [offerByte, feed] at h
      cases hg : gateOpen (takeInput f rest s)
      · rw [hg] at h; injection h with h; exact .inr ⟨rfl, h.symm⟩
      · rw [hg] at h; exact .inl ⟨rfl, h⟩
    | encode cmd sel p cap ob => exact .inr (.inr (.inl ⟨cmd, sel, p, cap, ob, rest, rfl, h⟩))
    | hostMode m => injection h with h; exact .inr (.inr (.inr ⟨m, rest, rfl, h.symm⟩))

theorem step_byte {s : State} {b : Byte} {f : Bool} {rest : List Input} (hl : s.cfg.legal = true)
    (hi : s.inputs = .byte b f :: rest) : step s = offerByte b (takeInput f rest s) := by
  simp [step, serveInput, onInstance_legal hl, hi]

/-- Everything ENCODE can do: fill the requester's buffer, and note a truncation. -/
theorem encodeReq_next {s t : State} {cmd : Nibble} {sel : Option Nibble} {p : List Byte} {cap : Nat}
    (h : exec (.encodeReq cmd sel p cap) s = .next t) :
    s.cfg.legal = true ∧ ∃ o ks, (ks = [] ∨ ks = [.encTrunc]) ∧ o = (runEncode s.cfg cmd sel p cap s.out.mem).1 ∧
      t = { s with out := o, conds := s.conds ++ ks } := by
  obtain ⟨hl, h⟩ := onInstance_next.1 h
  refine ⟨hl, ?_⟩
  injection h with h; subst h
  cases h2 : (runEncode s.cfg cmd sel p cap s.out.mem).2
  · exact ⟨_, [], .inl rfl, rfl, by simp [recordTrunc, setOut]⟩
  · exact ⟨_, [.encTrunc], .inr rfl, rfl, by simp [recordTrunc, setOut, record]⟩

theorem feedAll_append (xs ys : List Byte) (s : State) :
    feedAll (xs ++ ys) s = andThen (feedAll xs s) (feedAll ys) := by
  induction xs generalizing s with
  | nil => rfl
  | cons x xs ih =>
    simp only [List.cons_append, feedAll]
    rw [andThen_assoc]
    congr 1
    funext u
    exact ih u

/-- A transport read may be drained in pieces. -/
theorem drainRest_append (xs ys : List Byte) (s : State) :
    drainRest (xs ++ ys) s = andThen (drainRest xs s) (drainRest ys) := by
  induction xs generalizing s with
  | nil => rfl
  | cons x xs ih =>
    simp only [List.cons_append, drainRest]
    rw [andThen_assoc]
    congr 1
    funext u
    exact ih u

/-- Behind a closed gate nothing is fed (10_state.md R44). -/
theorem drainRest_closed {s : State} (h : gateOpen s = false) (bs : List Byte) : drainRest bs s = .next s := by
  induction bs with
  | nil => rfl
  | cons b rest ih => simp [drainRest, offerByte, h, ih]

/-- FEED of one byte of a stuffed payload below the capacity limit: its stuffed form appends the byte itself. -/
theorem feedAll_stuffByte {s : State} (b : Byte) (hl : s.cfg.legal = true) (he : s.esc = false) :
    feedAll (stuffByte b) s = append b s := by
  have hs := setEsc_self he
  by_cases h1 : b = delimByte
  · subst h1
    have : feedAll (stuffByte delimByte) s = andThen (exec .feedEsc s) (fun u => andThen (exec .feedTdelim u) .next) := rfl
    rw [this]
    have e1 : exec .feedEsc s = .next (setEsc true s) := by
      show onInstance s _ = _
      rw [onInstance_legal hl]; simp [feedEscEffect, he]
    rw [e1, andThen_of_next]
    have e2 : exec .feedTdelim (setEsc true s) = append delimByte s := by
      show onInstance _ _ = _
      rw [onInstance_legal (s := setEsc true s) hl, feedTransposed_eq, setEsc_setEsc, hs]; simp
    rw [e2]; cases append delimByte s <;> rfl
  · by_cases h2 : b = escByte
    · subst h2
      have : feedAll (stuffByte escByte) s = andThen (exec .feedEsc s) (fun u => andThen (exec .feedTesc u) .next) := rfl
      rw [this]
      have e1 : exec .feedEsc s = .next (setEsc true s) := by
        show onInstance s _ = _
        rw [onInstance_legal hl]; simp [feedEscEffect, he]
      rw [e1, andThen_of_next]
      have e2 : exec .feedTesc (setEsc true s) = append escByte s := by
        show onInstance _ _ = _
        rw [onInstance_legal (s := setEsc true s) hl, feedTransposed_eq, setEsc_setEsc, hs]; simp
      rw [e2]; cases append escByte s <;> rfl
    · have e0 : stuffByte b = [b] := by simp [stuffByte, h1, h2]
      have e1 : feed b s = append b s := by
        show exec (decodeRx b) s = _
        by_cases h3 : b = tescByte
        · subst h3
          show onInstance s _ = _
          rw [onInstance_legal hl, feedTransposed_eq, hs]; simp [he]
        · by_cases h4 : b = tdelimByte
          · subst h4
            show onInstance s _ = _
            rw [onInstance_legal hl, feedTransposed_eq, hs]; simp [he]
          · rw [decodeRx_other h1 h2 h4 h3]
            show onInstance s _ = _
            rw [onInstance_legal hl]; simp [feedOtherEffect, he]
      rw [e0]
      simp only [feedAll, e1]
      cases append b s <;> rfl

end Sys2Proof.Machine
end

