-- ==== Sys2Proof/Tests/Slice0.lean ====
section
/-! SUPPORT. Tests of the model. Expected results are those of 95_test_vectors.md or of the rule named in the docstring;
then, for every statement with hypotheses, a witness that meets them (`witness_<statement>…`). -/

namespace Sys2Proof.Tests
open Sys2Proof Sys2Proof.Machine

/-- The next state, if there is one. -/
def after : Result → Option State
  | .next s => some s
  | .fault _ => none
  | .refused _ => none

/-- The default start state of 95_test_vectors.md. -/
def start : State := State.construct Config.reference .kiss

/-- The start state of another configuration. -/
def startWith (c : Config) : State := State.construct c .kiss

/-- `s` with `cb` as the frame in progress. -/
def holding (cb : List Byte) (s : State) : State := cb.foldl (fun t b => storeCb b t) s

/-- `s` with `is` offered. -/
def offering (is : List Input) (s : State) : State := { s with inputs := is }

/-- `s` with an empty requester's buffer of capacity `cap`, `olen` bytes of which count as written. -/
def withOut (olen cap : Nat) (s : State) : State := { s with out := { mem := [], olen := olen, cap := cap } }

/-- The reference configuration with another capacity `N`. -/
def capacity (n : Nat) : Config := { Config.reference with n := n }

/-- The reference configuration with another port. -/
def portIs (p : Nibble) : Config := { Config.reference with myPort := p }

/-- The reference configuration with `P_GATE_AFTER_RETURN = CONTINUE`. -/
def gateContinues : Config := { Config.reference with gateAfterReturn := .continueRead }

/-- What the response of an encode request shows: the bytes, and the conditions. -/
def response (r : Result) : Option (Option (List Byte) × List Condition) :=
  (after r).map (fun t => (Memory.bytesBelow t.out.mem t.out.olen, t.conds))

/-- What the outside sees of a routed command: the events, the delay and the mode. -/
def seen (r : Result) : Option (List Event × Word32 × Mode) := (after r).map (fun t => (t.events, t.txdelay, t.mode))

/-- Frame in progress, escape flag and conditions. -/
def deframer (r : Result) : Option (Option (List Byte) × Bool × List Condition) :=
  (after r).map (fun t => (commandBuffer t, t.esc, t.conds))

/-- The rows of the configured port, for `port`: command codes 0 to 15. -/
def ownRows (port : Nibble) : List Instr :=
  [.data port, .txDelay port, .persist port, .slotTime port, .txTail port, .fullDuplex port, .vendor port,
    .cmdUndef7 port, .cmdUndef8 port, .cmdUndef9 port, .cmdUndef10 port, .cmdUndef11 port, .cmdUndef12 port,
    .cmdUndef13 port, .cmdUndef14 port, .cmdReturnLocal port]

/-! ## Well-formedness: an ill-formed term of each check is refused -/

theorem test_wf_feedOther_refused :
    wellFormed 0#4 (.feedOther 0xC0#8) = false ∧ wellFormed 0#4 (.feedOther 0xDB#8) = false ∧
    wellFormed 0#4 (.feedOther 0xDC#8) = false ∧ wellFormed 0#4 (.feedOther 0xDD#8) = false := by decide

theorem test_wf_encLiteral_refused :
    wellFormed 0#4 (.encLiteral 0xC0#8) = false ∧ wellFormed 0#4 (.encLiteral 0xDB#8) = false := by decide

theorem test_wf_unaddressed_refused :
    wellFormed 3#4 (.unaddressed 3#4 0#4) = false ∧ wellFormed 3#4 (.unaddressed 15#4 0#4) = false := by decide

theorem test_wf_globalOther_refused : wellFormed 0#4 (.globalOther 15#4) = false := by decide

theorem test_wf_vendorUnknown_refused :
    wellFormed 0#4 (.vendorUnknown 0x01#8) = false ∧ wellFormed 0#4 (.vendorUnknown 0x80#8) = false := by decide

theorem test_wf_own_port_rows_refused :
    (ownRows 3#4).any (fun i => wellFormed 0#4 i) = false ∧ (ownRows 3#4).all (fun i => wellFormed 3#4 i) = true := by decide

theorem test_wf_accepted :
    ([.feedEsc, .feedDelim, .feedTesc, .feedTdelim, .feedOther 0xDE#8, .encodeReq 15#4 (some 15#4) [] 0, .encStuffDelim,
      .encStuffEsc, .encLiteral 0xDC#8, .returnCli, .unaddressed 14#4 15#4, .globalOther 14#4, .data 3#4, .cmdUndef7 3#4,
      .cmdReturnLocal 3#4, .getRadioStats, .signalReporting, .vendorUnknown 0x7F#8] : List Instr).all
      (fun i => wellFormed 3#4 i) = true := by decide

/-! ## Decoding: a word of every row, written out in bits from spec/opcode_table.json -/

/-- Received bytes (30_encoding.md R76). -/
theorem test_decode_rx :
    decode .rxByte 0#4 [0b11011011#8] = .ok .feedEsc [] ∧ decode .rxByte 0#4 [0b11000000#8] = .ok .feedDelim [] ∧
    decode .rxByte 0#4 [0b11011101#8] = .ok .feedTesc [] ∧ decode .rxByte 0#4 [0b11011100#8] = .ok .feedTdelim [] ∧
    decode .rxByte 0#4 [0b11011110#8, 0xDB#8] = .ok (.feedOther 0xDE#8) [0xDB#8] := by decide

/-- Payload bytes (40_encoder.md R103 to R105). -/
theorem test_decode_payload :
    decode .encPayloadByte 0#4 [0b11000000#8] = .ok .encStuffDelim [] ∧
    decode .encPayloadByte 0#4 [0b11011011#8] = .ok .encStuffEsc [] ∧
    decode .encPayloadByte 0#4 [0b11011100#8] = .ok (.encLiteral 0xDC#8) [] := by decide

/-- Headers for other ports, and Return (30_encoding.md R86, 42_router.md R134 to R136). -/
theorem test_decode_header_filter :
    decode .header8 3#4 [0b11111111#8] = .ok .returnCli [] ∧
    decode .header8 3#4 [0b01000001#8] = .ok (.unaddressed 4#4 1#4) [] ∧
    decode .header8 3#4 [0b11110110#8] = .ok (.globalOther 6#4) [] := by decide

/-- Headers of `MY_PORT = 3`, command codes 0 to 6 (30_encoding.md R81). -/
theorem test_decode_header_defined :
    decode .header8 3#4 [0b00110000#8] = .ok (.data 3#4) [] ∧ decode .header8 3#4 [0b00110001#8] = .ok (.txDelay 3#4) [] ∧
    decode .header8 3#4 [0b00110010#8] = .ok (.persist 3#4) [] ∧
    decode .header8 3#4 [0b00110011#8] = .ok (.slotTime 3#4) [] ∧
    decode .header8 3#4 [0b00110100#8] = .ok (.txTail 3#4) [] ∧
    decode .header8 3#4 [0b00110101#8] = .ok (.fullDuplex 3#4) [] ∧
    decode .header8 3#4 [0b00110110#8] = .ok (.vendor 3#4) [] := by decide

/-- Headers of `MY_PORT = 3`, command codes 7 to 15 (42_router.md R145, R146). -/
theorem test_decode_header_undefined :
    decode .header8 3#4 [0b00110111#8] = .ok (.cmdUndef7 3#4) [] ∧
    decode .header8 3#4 [0b00111000#8] = .ok (.cmdUndef8 3#4) [] ∧
    decode .header8 3#4 [0b00111001#8] = .ok (.cmdUndef9 3#4) [] ∧
    decode .header8 3#4 [0b00111010#8] = .ok (.cmdUndef10 3#4) [] ∧
    decode .header8 3#4 [0b00111011#8] = .ok (.cmdUndef11 3#4) [] ∧
    decode .header8 3#4 [0b00111100#8] = .ok (.cmdUndef12 3#4) [] ∧
    decode .header8 3#4 [0b00111101#8] = .ok (.cmdUndef13 3#4) [] ∧
    decode .header8 3#4 [0b00111110#8] = .ok (.cmdUndef14 3#4) [] ∧
    decode .header8 3#4 [0b00111111#8] = .ok (.cmdReturnLocal 3#4) [] := by decide

/-- Vendor sub-commands (30_encoding.md R83). -/
theorem test_decode_vendor :
    decode .vendorSubcmd8 0#4 [0b00000001#8] = .ok .getRadioStats [] ∧
    decode .vendorSubcmd8 0#4 [0b10000000#8] = .ok .signalReporting [] ∧
    decode .vendorSubcmd8 0#4 [0b10000001#8] = .ok (.vendorUnknown 0x81#8) [] := by decide

/-- Rejections by name: no byte, and the encode request, which is no byte pattern. -/
theorem test_decode_rejects :
    decode .header8 0#4 [] = .rejected .noByte ∧ decode .encRequest 0#4 [0x00#8] = .rejected .notABytePattern := by decide

/-- The row ENCODE has no bits; its table word is empty (log entry 15). -/
theorem test_decode_table_words :
    decodeTableWord 0 0 = some (.encodeReq 0#4 none [] 0) ∧ decodeTableWord 8 0b11011011 = some .feedEsc ∧
    decodeTableWord 8 0b11111111 = some .returnCli ∧ decodeTableWord 8 0b00000110 = some (.vendor 0#4) ∧
    decodeTableWord 8 0b10000000 = some .signalReporting ∧ decodeTableWord 16 0 = none := by decide

/-! ## One operation, one step -/

/-- FEED-2, and FEED-9 at its second escape. -/
theorem test_feedEsc :
    deframer (exec .feedEsc start) = some (some [], true, []) ∧
    deframer (exec .feedEsc (setEsc true (holding [0x00#8] start))) = some (some [], false, [.doubleEsc]) := by decide

/-- FEED-1, and FEED-4 at its last byte. -/
theorem test_feedDelim :
    deframer (exec .feedDelim start) = some (some [], false, []) ∧
    deframer (exec .feedDelim (setEsc true (holding [0x00#8] start))) = some (some [], false, [.escAtDelim]) := by decide

/-- FEED-5 and FEED-6: whether an escape survives the empty delimiter (41_deframer.md R115). -/
theorem test_feedDelim_escape_at_empty_buffer :
    deframer (exec .feedDelim (setEsc true start)) = some (some [], true, []) ∧
    deframer (exec .feedDelim (setEsc true (startWith { Config.reference with emptyDelimClearsEsc := true }))) =
      some (some [], false, []) := by decide

/-- FEED-10 at its sixth byte, and FEED-7 at its third. -/
theorem test_feedTesc :
    deframer (exec .feedTesc (setEsc true (holding [0x00#8, 0xC0#8] start))) =
      some (some [0x00#8, 0xC0#8, 0xDB#8], false, []) ∧
    deframer (exec .feedTesc (holding [0x00#8] start)) = some (some [0x00#8, 0xDD#8], false, []) := by decide

/-- FEED-10 at its fourth byte, and FEED-7 at its fourth. -/
theorem test_feedTdelim :
    deframer (exec .feedTdelim (setEsc true (holding [0x00#8] start))) = some (some [0x00#8, 0xC0#8], false, []) ∧
    deframer (exec .feedTdelim (holding [0x00#8, 0xDD#8] start)) =
      some (some [0x00#8, 0xDD#8, 0xDC#8], false, []) := by decide

/-- FEED-8 at its fourth byte, and FEED-17 across its two reads. -/
theorem test_feedOther :
    deframer (exec (.feedOther 0x7E#8) (setEsc true (holding [0x00#8] start))) =
      some (some [0x00#8], false, [.unknownEsc]) ∧
    deframer (exec (.feedOther 0x41#8) (holding [0x00#8] start)) = some (some [0x00#8, 0x41#8], false, []) := by decide

/-- FEED-13 at the byte 06, and FEED-14 at the byte 05 (`N = 8`). -/
theorem test_feedOther_forced_dispatch :
    (after (exec (.feedOther 0x06#8)
      (holding [0x00#8, 0x01#8, 0x02#8, 0x03#8, 0x04#8, 0x05#8] (startWith (capacity 8))))).map
        (fun t => (t.routed, t.len, t.conds)) =
      some ([[0x00#8, 0x01#8, 0x02#8, 0x03#8, 0x04#8, 0x05#8, 0x06#8]], 0, [.overflowTrunc]) ∧
    (after (exec (.feedOther 0x05#8) (holding [0x00#8, 0x01#8, 0x02#8, 0x03#8, 0x04#8] (startWith (capacity 8))))).map
        (fun t => (t.routed, t.len, t.conds)) = some ([], 6, []) := by decide

/-- ENC-1 to ENC-6, ENC-12: the capacity rule (40_encoder.md R101, R102). -/
theorem test_encode_capacity :
    response (exec (.encodeReq 0#4 none [0xC0#8, 0x01#8] 2) start) = some (some [], []) ∧
    response (exec (.encodeReq 0#4 none [0xC0#8, 0x01#8] 4) start) =
      some (some [0xC0#8, 0x00#8, 0xC0#8], [.encTrunc]) ∧
    response (exec (.encodeReq 0#4 none [0xC0#8, 0x01#8] 5) start) =
      some (some [0xC0#8, 0x00#8, 0xDB#8, 0xDC#8, 0xC0#8], [.encTrunc]) ∧
    response (exec (.encodeReq 0#4 none [0xC0#8, 0x01#8] 6) start) =
      some (some [0xC0#8, 0x00#8, 0xDB#8, 0xDC#8, 0xC0#8], [.encTrunc]) ∧
    response (exec (.encodeReq 0#4 none [0xC0#8, 0x01#8] 7) start) =
      some (some [0xC0#8, 0x00#8, 0xDB#8, 0xDC#8, 0x01#8, 0xC0#8], []) := by decide

/-- ENC-16, ENC-17, ENC-18, ENC-21: stuffing, and the header written raw. -/
theorem test_encode_header_and_stuffing :
    response (exec (.encodeReq 0#4 none [0xC0#8, 0xDB#8, 0x01#8] 9) start) =
      some (some [0xC0#8, 0x00#8, 0xDB#8, 0xDC#8, 0xDB#8, 0xDD#8, 0x01#8, 0xC0#8], []) ∧
    response (exec (.encodeReq 0#4 (some 12#4) [0x01#8] 5) start) = some (some [0xC0#8, 0xC0#8, 0x01#8, 0xC0#8], []) ∧
    response (exec (.encodeReq 11#4 (some 13#4) [0x41#8] 5) start) = some (some [0xC0#8, 0xDB#8, 0x41#8, 0xC0#8], []) ∧
    response (exec (.encodeReq 15#4 (some 15#4) [] 3) start) = some (some [0xC0#8, 0xFF#8, 0xC0#8], []) := by decide

/-- 40_encoder.md R103, at the position 0. -/
theorem test_encStuffDelim :
    response (exec .encStuffDelim (withOut 0 3 start)) = some (some [0xDB#8, 0xDC#8], []) := by decide

/-- 40_encoder.md R104, at the position 0. -/
theorem test_encStuffEsc :
    response (exec .encStuffEsc (withOut 0 3 start)) = some (some [0xDB#8, 0xDD#8], []) := by decide

/-- 40_encoder.md R105, and R101: a literal is not written into one free byte. -/
theorem test_encLiteral :
    response (exec (.encLiteral 0xDC#8) (withOut 0 3 start)) = some (some [0xDC#8], []) ∧
    response (exec (.encLiteral 0x01#8) (withOut 0 2 start)) = some (some [], [.encTrunc]) := by decide

/-- RTR-11 at its last byte. -/
theorem test_return :
    seen (exec .returnCli (holding [0xFF#8, 0x12#8, 0x34#8] start)) = some ([.setModeCli], 0#32, .cli) := by decide

/-- L1-5 at its routing, and RTR-10. -/
theorem test_ports_ignored :
    deframer (exec (.unaddressed 3#4 0#4) (holding [0x30#8, 0x41#8] start)) =
      some (some [0x30#8, 0x41#8], false, [.unaddressed]) ∧
    deframer (exec (.globalOther 0#4) (holding [0xF0#8, 0xAA#8] start)) =
      some (some [0xF0#8, 0xAA#8], false, [.unaddressed]) := by decide

/-- RTR-4, and RTR-2. -/
theorem test_data :
    seen (exec (.data 0#4) (holding [0x00#8, 0x48#8, 0xC0#8, 0x49#8] (setTxdelay 500#32 start))) =
      some ([.submit [0x48#8, 0xC0#8, 0x49#8] 0 500#32], 500#32, .kiss) ∧
    seen (exec (.data 0#4) (holding [0x00#8] start)) = some ([], 0#32, .kiss) := by decide

/-- PARSE-1, and RTR-5. -/
theorem test_txDelay :
    seen (exec (.txDelay 0#4) (holding [0x01#8, 0x35#8, 0x30#8] start)) = some ([], 500#32, .kiss) ∧
    seen (exec (.txDelay 0#4) (holding [0x01#8] (setTxdelay 123#32 start))) = some ([], 123#32, .kiss) := by decide

/-- PARSE-3, PARSE-4, PARSE-9 and PARSE-12. -/
theorem test_parse :
    txdelayParse Config.reference [0x30#8, 0x30#8, 0x37#8] = 7#32 ∧
    txdelayParse Config.reference [0x31#8, 0x32#8, 0x61#8, 0x39#8] = 12#32 ∧
    txdelayParse Config.reference [0x2D#8, 0x35#8] = 0#32 ∧ txdelayParse Config.reference [0x05#8] = 0#32 := by decide

/-- PARSE-6 and PARSE-7: the product and the accumulation wrap. -/
theorem test_parse_wraps :
    txdelayParse Config.reference [0x34#8, 0x32#8, 0x39#8, 0x34#8, 0x39#8, 0x36#8, 0x37#8, 0x33#8, 0x30#8] * 10#32 = 4#32 ∧
    txdelayParse Config.reference [0x34#8, 0x32#8, 0x39#8, 0x34#8, 0x39#8, 0x36#8, 0x37#8, 0x32#8, 0x39#8, 0x36#8] =
      0#32 := by decide

/-- RTR-8: the four commands without an effect. -/
theorem test_unimplemented_commands :
    after (exec (.persist 0#4) (holding [0x02#8, 0x3F#8] start)) = some (holding [0x02#8, 0x3F#8] start) ∧
    after (exec (.slotTime 0#4) (holding [0x03#8, 0x0A#8] start)) = some (holding [0x03#8, 0x0A#8] start) ∧
    after (exec (.txTail 0#4) (holding [0x04#8, 0x01#8] start)) = some (holding [0x04#8, 0x01#8] start) ∧
    after (exec (.fullDuplex 0#4) (holding [0x05#8, 0x01#8] start)) = some (holding [0x05#8, 0x01#8] start) := by decide

/-- VEN-1 and VEN-7. -/
theorem test_vendor :
    seen (exec (.vendor 0#4) (holding [0x06#8] start)) = some ([], 0#32, .kiss) ∧
    seen (exec (.vendor 0#4) (holding [0x06#8, 0xFF#8, 0x11#8, 0x22#8] start)) =
      some ([.txWrite [0xC0#8, 0x06#8, 0xFF#8, 0xC0#8]], 0#32, .kiss) := by decide

/-- RTR-9 for every undefined code (42_router.md R145, R146): the condition and nothing else. -/
theorem test_undefined_commands :
    after (exec (.cmdUndef7 0#4) start) = some (record .undefCmd start) ∧
    after (exec (.cmdUndef8 0#4) start) = some (record .undefCmd start) ∧
    after (exec (.cmdUndef9 0#4) start) = some (record .undefCmd start) ∧
    after (exec (.cmdUndef10 0#4) start) = some (record .undefCmd start) ∧
    after (exec (.cmdUndef11 0#4) start) = some (record .undefCmd start) ∧
    after (exec (.cmdUndef12 0#4) start) = some (record .undefCmd start) ∧
    after (exec (.cmdUndef13 0#4) start) = some (record .undefCmd start) ∧
    after (exec (.cmdUndef14 0#4) start) = some (record .undefCmd start) ∧
    after (exec (.cmdReturnLocal 0#4) start) = some (record .undefCmd start) := by decide

/-- VEN-8: an own-port row addressed to another port is ignored. -/
theorem test_vendor_other_port :
    seen (exec (.vendor 3#4) (holding [0x36#8, 0x7F#8] start)) = some ([], 0#32, .kiss) := by decide

/-- VEN-2 and VEN-3. -/
theorem test_vendor_stubs :
    after (exec .getRadioStats start) = some start ∧ after (exec .signalReporting start) = some start := by decide

/-- L1-6, for `MY_PORT = 0` and for `MY_PORT = 3`. -/
theorem test_vendorUnknown :
    seen (exec (.vendorUnknown 0x7F#8) start) = some ([.txWrite [0xC0#8, 0x06#8, 0xFF#8, 0xC0#8]], 0#32, .kiss) ∧
    seen (exec (.vendorUnknown 0x7F#8) (startWith (portIs 3#4))) =
      some ([.txWrite [0xC0#8, 0x36#8, 0xFF#8, 0xC0#8]], 0#32, .kiss) := by decide

/-! ## The step -/

/-- RTR-12 and RTR-13 at the byte after the Return: the gate of 10_state.md R44. -/
theorem test_step_gate_after_return :
    deframer (step { offering [.byte 0x41#8 false] start with mode := .cli, returnInRead := true }) =
      some (some [], false, []) ∧
    deframer (step { offering [.byte 0x41#8 false] (startWith gateContinues) with mode := .cli, returnInRead := true }) =
      some (some [0x41#8], false, []) ∧
    deframer (step { offering [.byte 0x41#8 true] (startWith gateContinues) with mode := .cli, returnInRead := true }) =
      some (some [], false, []) := by decide

/-- L1-6 at its last byte: decoding, dispatch, router, sub-router and encoder in one step. -/
theorem test_step_vendor_reply :
    seen (step (offering [.byte 0xC0#8 true] (holding [0x06#8, 0x7F#8] start))) =
      some ([.txWrite [0xC0#8, 0x06#8, 0xFF#8, 0xC0#8]], 0#32, .kiss) := by decide

/-- 20_memory.md R57: the bytes above olen are the caller's, whatever an earlier request left; a byte at C or above is no
storage of the buffer. -/
theorem test_step_caller_buffer :
    (after (step (offering [.encode 0#4 none [] 5 [0x11#8, 0x22#8, 0x33#8, 0x44#8, 0x55#8, 0x66#8]]
      { start with out := { mem := [(3, 0xEE#8), (7, 0xEE#8)], olen := 4, cap := 9 } }))).map (fun t => t.out) =
    some { mem := [(0, 0xC0#8), (1, 0x00#8), (2, 0xC0#8), (3, 0x44#8), (4, 0x55#8)], olen := 3, cap := 5 } := by decide

/-- 10_state.md R44, CONTINUE: the rest of the read that held the Return is fed, and a later read is not. -/
theorem test_drain_reads :
    (after (andThen (drain [0xC0#8, 0xFF#8, 0xC0#8, 0x41#8] (startWith gateContinues)) (drain [0x42#8]))).map
      (fun t => (commandBuffer t, t.mode)) = some (some [0x41#8], .cli) := by decide

/-- A placed table word is the operation the next step runs (log entry 16). -/
theorem test_step_runs_placed_word :
    seen (step (State.reset.withFetchWord 8 0xFF)) = some ([.setModeCli], 0#32, .cli) ∧
    (after (step (State.reset.withFetchWord 8 0xDB))).map (fun t => t.esc) = some true ∧
    (after (step (State.reset.withFetchWord 8 0x07))).map (fun t => t.conds) = some [.undefCmd] ∧
    (after (step (State.reset.withFetchWord 8 0x80))).map (fun t => t.routed) = some [[0x06#8, 0x80#8]] ∧
    (after (step (State.reset.withFetchWord 0 0))).map (fun t => t.out.olen) = some 0 := by decide

/-! ## Witnesses: a state and operands that meet the hypotheses of each statement, one for each clause -/

/-- A configuration at the bounds of 60_exceptions.md R184. -/
def smallest : Config := { Config.reference with n := 2, myPort := 14#4 }

/-- The start state meets the invariant, with any inputs. -/
theorem start_inv (c : Config) (h : c.legal = true) (is : List Input) : Inv (offering is (startWith c)) where
  legal := h
  lenBound := by simpa [offering, startWith, State.construct] using ((legal_iff c).1 h).1
  held := ⟨[], rfl⟩
  cbWf := List.Pairwise.nil
  cbBelow _ _ := rfl
  outWf := List.Pairwise.nil
  outBound := Nat.le_refl _
  outBelow _ _ := rfl

/-- A state that holds a frame in progress meets the invariant: the Vendor command of L1-6, and its last byte. -/
theorem vendor_frame_inv : Inv (offering [.byte 0xC0#8 false] (holding [0x06#8, 0x7F#8] start)) where
  legal := rfl
  lenBound := by decide
  held := ⟨[0x06#8, 0x7F#8], rfl⟩
  cbWf := by decide
  cbBelow i h := by
    have h' : 500 ≤ i + 1 := h
    show Memory.read [(0, 0x06#8), (1, 0x7F#8)] i = none
    rw [Memory.read, if_neg (by omega), Memory.read, if_neg (by omega), Memory.read]
  outWf := List.Pairwise.nil
  outBound := Nat.le_refl _
  outBelow _ _ := rfl

theorem witness_DecodersFollowThePrecedence :
    14#4 ≠ 15#4 ∧ (0xF0#8 ≠ 0xFF#8 ∧ headerPort 0xF0#8 ≠ 14#4 ∧ headerPort 0xF0#8 = 15#4) ∧
    (0xDF#8 ≠ 0xFF#8 ∧ headerPort 0xDF#8 ≠ 14#4 ∧ headerPort 0xDF#8 ≠ 15#4) ∧
    (∀ c : Nibble, headerByte 14#4 c ≠ 0xFF#8 ∧ headerPort (headerByte 14#4 c) = 14#4 ∧
      headerCmd (headerByte 14#4 c) = c) := by decide

theorem witness_ConstructionMeetsInv : Config.reference.legal = true ∧ smallest.legal = true := by decide

theorem witness_StepRunsDecodedByte_kiss :
    let s := offering [.byte 0xDB#8 true] start
    s.cfg.legal = true ∧ s.inputs = .byte 0xDB#8 true :: [] ∧ decode .rxByte s.cfg.myPort [0xDB#8] = .ok .feedEsc [] ∧
    wellFormed s.cfg.myPort .feedEsc = true ∧ s.mode = .kiss := by decide

theorem witness_StepRunsDecodedByte_continue :
    let s := { offering [.byte 0x41#8 false] (startWith gateContinues) with mode := .cli, returnInRead := true }
    s.cfg.legal = true ∧ s.inputs = .byte 0x41#8 false :: [] ∧
    decode .rxByte s.cfg.myPort [0x41#8] = .ok (.feedOther 0x41#8) [] ∧ wellFormed s.cfg.myPort (.feedOther 0x41#8) = true ∧
    (s.cfg.gateAfterReturn = .continueRead ∧ s.returnInRead = true) := by decide

theorem witness_StepClosedGateLeavesBlock_stop :
    let s := { offering [.byte 0x41#8 false] start with mode := .cli, returnInRead := true }
    s.cfg.legal = true ∧ s.inputs = .byte 0x41#8 false :: [] ∧ s.mode = .cli ∧ s.cfg.gateAfterReturn = .stop := by decide

theorem witness_StepClosedGateLeavesBlock_new_read :
    let s := { offering [.byte 0x41#8 true] (startWith gateContinues) with mode := .cli, returnInRead := true }
    s.cfg.legal = true ∧ s.inputs = .byte 0x41#8 true :: [] ∧ s.mode = .cli := by decide

theorem witness_StepClosedGateLeavesBlock_no_return :
    let s := { offering [.byte 0x41#8 false] (startWith gateContinues) with mode := .cli }
    s.cfg.legal = true ∧ s.inputs = .byte 0x41#8 false :: [] ∧ s.mode = .cli ∧ s.returnInRead = false := by decide

theorem witness_StepServesEncodeRequest :
    let s := offering [.encode 0#4 none [0xC0#8] 5 [0x11#8]] State.reset
    s.cfg.legal = true ∧ s.inputs = .encode 0#4 none [0xC0#8] 5 [0x11#8] :: [] := by decide

theorem witness_StepHostModeWrite :
    let s := offering [.hostMode .kiss] State.reset
    s.cfg.legal = true ∧ s.inputs = .hostMode .kiss :: [] := by decide

theorem witness_IdleStepKeepsState : State.reset.cfg.legal = true ∧ State.reset.inputs = [] := by decide

theorem witness_IllegalInstanceRefused :
    (startWith (capacity 1)).cfg.n < 2 ∧ (startWith (portIs 15#4)).cfg.myPort = 15#4 ∧
    (startWith { Config.reference with replyCap := 4 }).cfg.replyCap < 5 := by decide

/-- For FeedEscResult, ReturnExitsToCli, UnaddressedIgnored, UnimplementedCommandsDoNothing, VendorStubsDoNothing and
UnknownVendorReply, which ask for a legal configuration alone. -/
theorem witness_legal_configuration :
    start.cfg.legal = true ∧ (setEsc true start).cfg.legal = true ∧ (startWith smallest).cfg.legal = true := by decide

theorem witness_FeedDelimResult :
    (start.cfg.legal = true ∧ start.len = 0) ∧
    ((holding [0x00#8] start).cfg.legal = true ∧ 0 < (holding [0x00#8] start).len ∧
      commandBuffer (holding [0x00#8] start) = some [0x00#8]) := by decide

/-- For FeedTescResult, FeedTdelimResult, FeedOtherResult, AppendedByteIsRead and ForcedDispatchHasNMinusOneBytes: the
last index below the forced dispatch, and the index of the forced dispatch, down to the least capacity. -/
theorem witness_append_boundary :
    ((startWith (capacity 3)).cfg.legal = true ∧ (startWith (capacity 3)).esc = false ∧
      (startWith (capacity 3)).len + 2 < (startWith (capacity 3)).cfg.n ∧
      commandBuffer (startWith (capacity 3)) = some []) ∧
    ((holding [0x00#8] (startWith (capacity 3))).cfg.legal = true ∧
      (holding [0x00#8] (startWith (capacity 3))).len + 2 = (holding [0x00#8] (startWith (capacity 3))).cfg.n ∧
      commandBuffer (holding [0x00#8] (startWith (capacity 3))) = some [0x00#8]) ∧
    ((startWith smallest).cfg.legal = true ∧ (startWith smallest).esc = false ∧
      (startWith smallest).len + 2 = (startWith smallest).cfg.n ∧ commandBuffer (startWith smallest) = some []) := by decide

theorem witness_FeedOtherResult_escaped : (setEsc true start).cfg.legal = true ∧ (setEsc true start).esc = true := by decide

theorem witness_EncodeShortCapacity : start.cfg.legal = true ∧ 2 < 3 := by decide

theorem witness_EncodeResult :
    start.cfg.legal = true ∧ (2 < 3 ∧ ¬ (3 ≤ 2)) ∧ 3 ≤ 3 ∧
    response (exec (.encodeReq 0#4 none [0x01#8] 3) start) = some (some [0xC0#8, 0x00#8, 0xC0#8], [.encTrunc]) := by decide

theorem witness_EncodeWholePayload : start.cfg.legal = true ∧ 2 * [0xC0#8, 0xDB#8].length + 3 ≤ 7 := by decide

theorem witness_EncodeReadsOnlyItsOperands :
    start.cfg.legal = true ∧ (withOut 3 9 (startWith (capacity 8))).cfg.legal = true ∧
    start.cfg.myPort = (withOut 3 9 (startWith (capacity 8))).cfg.myPort ∧
    start.out ≠ (withOut 3 9 (startWith (capacity 8))).out := by decide

/-- For PayloadRowsWrite and PayloadLoopRunsDecodedRow: the last position with room. -/
theorem witness_PayloadRowsWrite :
    (withOut 2 5 start).cfg.legal = true ∧ 2 ≤ (withOut 2 5 start).out.cap - (withOut 2 5 start).out.olen - 1 := by decide

theorem witness_PayloadRowsWithoutRoom :
    (withOut 2 4 start).cfg.legal = true ∧ formatOf .encStuffEsc = .encPayloadByte ∧
    (withOut 2 4 start).out.cap - (withOut 2 4 start).out.olen - 1 < 2 := by decide

theorem witness_OwnPortRowsFilterThePort :
    start.cfg.legal = true ∧ 15#4 ≠ start.cfg.myPort ∧ commandBuffer start = some [] ∧
    Instr.data 15#4 ∈ ownRows 15#4 ∧ Instr.cmdReturnLocal 15#4 ∈ ownRows 15#4 := by decide

theorem witness_DataSubmitsPayload :
    start.cfg.legal = true ∧ commandBuffer (holding [0x00#8] start) = some (0x00#8 :: []) ∧
    (commandBuffer (holding [0x00#8, 0x00#8] start) = some (0x00#8 :: [0x00#8]) ∧ [0x00#8] ≠ []) := by decide

theorem witness_TxDelaySetsDelay :
    start.cfg.legal = true ∧ commandBuffer (holding [0x01#8] start) = some (0x01#8 :: []) ∧
    (commandBuffer (holding [0x01#8, 0x2F#8] start) = some (0x01#8 :: [0x2F#8]) ∧ [0x2F#8] ≠ [] ∧
      start.cfg.txdelayParse = .standard ∧ (0x2F#8).toNat < 0x30) ∧
    (commandBuffer (holding [0x01#8, 0x3A#8] start) = some (0x01#8 :: [0x3A#8]) ∧ 0x39 < (0x3A#8).toNat) := by decide

theorem witness_DefaultParseReadsDigits : Config.reference.txdelayParse = .standard := by decide

theorem witness_VendorRunsSubcommand :
    start.cfg.legal = true ∧ commandBuffer (holding [0x06#8] start) = some [0x06#8] ∧
    commandBuffer (holding [0x06#8, 0x80#8, 0x01#8] start) = some (0x06#8 :: 0x80#8 :: [0x01#8]) := by decide

theorem witness_UndefinedCommandsDoNothing :
    start.cfg.legal = true ∧ Instr.cmdUndef7 0#4 ∈ (ownRows start.cfg.myPort).drop 7 ∧
    (startWith smallest).cfg.legal = true ∧
    Instr.cmdReturnLocal 14#4 ∈ (ownRows (startWith smallest).cfg.myPort).drop 7 := by decide

theorem witness_DispatchRunsDecodedHeader :
    start.cfg.legal = true ∧ commandBuffer (holding [0xFF#8, 0x12#8] start) = some (0xFF#8 :: [0x12#8]) := by decide

/-- A de-framer operation that answers a next state: each clause of FeedFrame, and an operation that routes. -/
theorem witness_FeedFrame :
    (formatOf .feedEsc = .rxByte ∧ ∃ t, exec .feedEsc start = .next t ∧ t.routed = start.routed) ∧
    (formatOf .feedDelim = .rxByte ∧ ∃ t, exec .feedDelim (holding [0x30#8] start) = .next t ∧ t.routed = [[0x30#8]]) ∧
    (formatOf (.feedOther 0x7E#8) = .rxByte ∧ (setEsc true start).esc = true ∧
      ∃ t, exec (.feedOther 0x7E#8) (setEsc true start) = .next t) :=
  ⟨⟨rfl, _, rfl, rfl⟩, ⟨rfl, _, rfl, rfl⟩, rfl, rfl, _, rfl⟩

/-- A header row and a vendor row that answer a next state, for each clause of RouterFrame. -/
theorem witness_RouterFrame :
    (formatOf .returnCli = .header8 ∧ ∃ t, exec .returnCli start = .next t) ∧
    (formatOf (.txDelay 0#4) = .header8 ∧ ∃ t, exec (.txDelay 0#4) (holding [0x01#8, 0x31#8] start) = .next t) ∧
    (formatOf (.persist 0#4) = .header8 ∧ ∃ t, exec (.persist 0#4) start = .next t) ∧
    (formatOf (.vendorUnknown 0x7F#8) = .vendorSubcmd8 ∧ ∃ t, exec (.vendorUnknown 0x7F#8) start = .next t) :=
  ⟨⟨rfl, _, rfl⟩, ⟨rfl, _, rfl⟩, ⟨rfl, _, rfl⟩, rfl, _, rfl⟩

/-- An encode request, a stuffed and a literal payload byte that answer a next state: the clauses of EncoderFrame. -/
theorem witness_EncoderFrame :
    (formatOf (.encodeReq 0#4 none [0x01#8] 5) = .encRequest ∧
      ∃ t, exec (.encodeReq 0#4 none [0x01#8] 5) start = .next t) ∧
    (formatOf .encStuffDelim = .encPayloadByte ∧ ∃ t, exec .encStuffDelim (withOut 0 3 start) = .next t) ∧
    (formatOf (.encLiteral 0x01#8) = .encPayloadByte ∧ ∃ t, exec (.encLiteral 0x01#8) (withOut 0 3 start) = .next t) :=
  ⟨⟨rfl, _, rfl⟩, ⟨rfl, _, rfl⟩, rfl, _, rfl⟩

theorem witness_EscSetOnlyByFeedEsc :
    ∃ t, exec .feedEsc start = .next t ∧ start.esc = false ∧ t.esc = true := ⟨_, rfl, rfl, rfl⟩

/-- For ModeIsNeverRead and TracesAreNeverRead: an operation that writes the mode, and one that writes both traces. -/
theorem witness_ModeAndTraces :
    (∃ t, exec .returnCli start = .next t ∧ t.mode = .cli) ∧
    (∃ t, exec .feedDelim (holding [0x07#8] start) = .next t ∧ t.conds = [.undefCmd] ∧ t.routed = [[0x07#8]]) :=
  ⟨⟨_, rfl, rfl⟩, _, rfl, rfl, rfl⟩

theorem witness_DecodeEncodeAgree :
    14#4 ≠ 15#4 ∧ wellFormed 14#4 (.unaddressed 0#4 15#4) = true ∧ formatOf (.unaddressed 0#4 15#4) ≠ .encRequest ∧
    wellFormed 14#4 (.cmdReturnLocal 14#4) = true := by decide

theorem witness_EncodeDecodeAgree : Format.header8 ≠ .encRequest ∧ 14#4 ≠ 15#4 := by decide

/-- For StepKeepsInv and BlockNeverFaults: with a frame in progress, and at the least capacity. -/
theorem witness_StepKeepsInv :
    (Inv (offering [.byte 0xC0#8 false] (holding [0x06#8, 0x7F#8] start)) ∧
      ∃ t, step (offering [.byte 0xC0#8 false] (holding [0x06#8, 0x7F#8] start)) = .next t) ∧
    (Inv (offering [.byte 0x41#8 true] (startWith smallest)) ∧
      ∃ t, step (offering [.byte 0x41#8 true] (startWith smallest)) = .next t) :=
  ⟨⟨vendor_frame_inv, _, rfl⟩, start_inv smallest rfl _, _, rfl⟩

/-- A payload that fits below the forced dispatch, and one that reaches it. -/
theorem witness_EncodedFrameRoundTrips :
    (Inv (startWith (capacity 4)) ∧ (startWith (capacity 4)).len = 0 ∧ (startWith (capacity 4)).esc = false ∧
      headerByte 0#4 0#4 ≠ 0xC0#8 ∧ headerByte 0#4 0#4 ≠ 0xDB#8 ∧ 2 * [0xC0#8].length + 3 ≤ 5 ∧
      [0xC0#8].length + 3 ≤ (startWith (capacity 4)).cfg.n) ∧
    (Inv (startWith (capacity 3)) ∧ (startWith (capacity 3)).len = 0 ∧ (startWith (capacity 3)).esc = false ∧
      headerByte 0#4 0#4 ≠ 0xC0#8 ∧ headerByte 0#4 0#4 ≠ 0xDB#8 ∧ 2 * [0xC0#8].length + 3 ≤ 5 ∧
      [0xC0#8].length + 2 = (startWith (capacity 3)).cfg.n) :=
  ⟨⟨start_inv _ rfl [], by decide⟩, start_inv _ rfl [], by decide⟩

theorem witness_TxWriteOnlyFromUnknownVendor :
    Inv (offering [.byte 0xC0#8 false] (holding [0x06#8, 0x7F#8] start)) ∧
    ∃ t, step (offering [.byte 0xC0#8 false] (holding [0x06#8, 0x7F#8] start)) = .next t ∧
      Event.txWrite [0xC0#8, 0x06#8, 0xFF#8, 0xC0#8] ∈ t.events :=
  ⟨vendor_frame_inv, _, rfl, by decide⟩

theorem witness_KissLeftOnlyByReturnOrHost :
    (∃ t, step (offering [.byte 0xC0#8 false] (holding [0xFF#8] start)) = .next t ∧ start.mode = .kiss ∧ t.mode = .cli) ∧
    (∃ t, step (offering [.hostMode .cli] start) = .next t ∧ t.mode = .cli) ∧
    (∃ t, step (offering [.hostMode .kiss] State.reset) = .next t ∧ State.reset.mode = .cli ∧ t.mode = .kiss) :=
  ⟨⟨_, rfl, rfl, rfl⟩, ⟨_, rfl, rfl⟩, _, rfl, rfl, rfl⟩

theorem witness_DelayChangedOnlyByTxDelay :
    ∃ t, step (offering [.byte 0xC0#8 false] (holding [0x01#8, 0x31#8] start)) = .next t ∧ t.txdelay ≠ start.txdelay :=
  ⟨_, rfl, by decide⟩

/-- For StepTakesOneInputAndKeepsConfig, EventHistoryOnlyGrows and RoutedBuffersAreBounded: steps that answer a next
state, one of which emits and routes. -/
theorem witness_step_answers :
    (∃ t, step State.reset = .next t) ∧
    (Inv (offering [.byte 0xC0#8 false] (holding [0x06#8, 0x7F#8] start)) ∧
      ∃ t, step (offering [.byte 0xC0#8 false] (holding [0x06#8, 0x7F#8] start)) = .next t ∧
        t.routed = [[0x06#8, 0x7F#8]] ∧ t.events.length = 1) :=
  ⟨⟨_, rfl⟩, vendor_frame_inv, _, rfl, rfl, rfl⟩

/-- A step with a framing condition, and one with ENC_TRUNC. -/
theorem witness_OneFramingConditionPerStep :
    (∃ t, step (offering [.byte 0xDB#8 true] (setEsc true start)) = .next t ∧ t.conds = [.doubleEsc]) ∧
    (∃ t, step (offering [.encode 0#4 none [0x01#8] 3 []] start) = .next t ∧ t.conds = [.encTrunc]) :=
  ⟨⟨_, rfl, rfl⟩, _, rfl, rfl⟩

theorem witness_NothingIsFedInCliMode :
    (State.reset.cfg.gateAfterReturn = .stop ∧ State.reset.mode = .cli) ∧
    ∃ t, feed 0xC0#8 { holding [0xFF#8] start with returnInRead := false } = .next t ∧
      (holding [0xFF#8] start).mode = .kiss ∧ t.mode = .cli :=
  ⟨⟨rfl, rfl⟩, _, rfl, rfl, rfl⟩

theorem witness_ChunksDoNotMatter :
    start.cfg.legal = true ∧ start.cfg.gateAfterReturn = .stop ∧
    ∃ t, drain ([(0x00#8, true), (0xDB#8, false), (0xDC#8, true)].map Prod.fst) start = .next t ∧
      commandBuffer t = some [0x00#8, 0xC0#8] :=
  ⟨rfl, rfl, _, rfl, rfl⟩

/-- Each clause: STOP, CONTINUE with a Return in the read, and CONTINUE without one. -/
theorem witness_ReadBoundaryEndsTheReturnGate :
    (∃ t, exec .returnCli start = .next t) ∧
    (∃ v, Inv (offering (readOf [0xC0#8, 0xFF#8, 0xC0#8, 0x41#8] ++ readOf [0x42#8]) start) ∧
      Host.Core.run Sys2Proof.core 3 (offering (readOf [0xC0#8, 0xFF#8, 0xC0#8, 0x41#8] ++ readOf [0x42#8]) start) =
        .next v ∧ v.mode = .cli ∧ start.cfg.gateAfterReturn = .stop) ∧
    (∃ v, Inv (offering (readOf [0xC0#8, 0xFF#8, 0xC0#8, 0x41#8] ++ readOf [0x42#8]) (startWith gateContinues)) ∧
      Host.Core.run Sys2Proof.core 3
        (offering (readOf [0xC0#8, 0xFF#8, 0xC0#8, 0x41#8] ++ readOf [0x42#8]) (startWith gateContinues)) = .next v ∧
      v.mode = .cli ∧ (startWith gateContinues).cfg.gateAfterReturn = .continueRead ∧ v.returnInRead = true) ∧
    (∃ v, Inv (offering (readOf [0x41#8] ++ readOf []) (State.construct gateContinues .cli)) ∧
      Host.Core.run Sys2Proof.core 1 (offering (readOf [0x41#8] ++ readOf []) (State.construct gateContinues .cli)) =
        .next v ∧ v.mode = .cli ∧ v.returnInRead = false) :=
  ⟨⟨_, rfl⟩, ⟨_, start_inv _ rfl _, rfl, rfl, rfl⟩, ⟨_, start_inv _ rfl _, rfl, rfl, rfl, rfl⟩,
    ⟨_, { legal := rfl, lenBound := by decide, held := ⟨[], rfl⟩, cbWf := List.Pairwise.nil, cbBelow := fun _ _ => rfl,
          outWf := List.Pairwise.nil, outBound := Nat.le_refl _, outBelow := fun _ _ => rfl }, rfl, rfl, rfl⟩⟩

/-- Both clauses on N, with the longest buffer of N = 3. -/
theorem witness_DoubleEscapeDropsHeader :
    (Inv (startWith (capacity 3)) ∧ (startWith (capacity 3)).len = 0 ∧ (startWith (capacity 3)).esc = false ∧
      0xDD#8 ≠ 0xC0#8 ∧ 0xDD#8 ≠ 0xDB#8 ∧ 3 ≤ (startWith (capacity 3)).cfg.n ∧ [0x41#8, 0xC0#8] ≠ [] ∧
      [0x41#8, 0xC0#8].length + 1 ≤ (startWith (capacity 3)).cfg.n) ∧
    (Inv (startWith smallest) ∧ (startWith smallest).len = 0 ∧ (startWith smallest).esc = false ∧
      (startWith smallest).cfg.n = 2) :=
  ⟨⟨start_inv _ rfl [], by decide⟩, start_inv _ rfl [], by decide⟩

theorem witness_CallerBufferIsKept :
    let s := offering [.encode 0#4 none [0x01#8] 5 [0x11#8, 0x22#8, 0x33#8, 0x44#8, 0x55#8]] start
    s.cfg.legal = true ∧
    s.inputs = .encode 0#4 none [0x01#8] 5 [0x11#8, 0x22#8, 0x33#8, 0x44#8, 0x55#8] :: [] := by decide

theorem witness_DelaySetThenDataSubmitted :
    Inv (startWith (capacity 4)) ∧ (startWith (capacity 4)).len = 0 ∧ (startWith (capacity 4)).esc = false ∧
    (startWith (capacity 4)).cfg.txdelayParse = .standard ∧ 4 ≤ (startWith (capacity 4)).cfg.n ∧
    (startWith (capacity 4)).cfg.myPort ≠ 12#4 ∧ [0xAA#8, 0xBB#8] ≠ [] ∧
    [0xAA#8, 0xBB#8].length + 2 ≤ (startWith (capacity 4)).cfg.n :=
  ⟨start_inv _ rfl [], by decide⟩

end Sys2Proof.Tests
end

section
/-! PROOFS. Noninterference of the diagnostic traces (00_scope.md R24, 60_exceptions.md R159, 41_deframer.md R129).
The traces are erased from a state; a function that only writes them answers the same, up to erasure, on a state and on
the erased state, and this is kept by composition. So it is shown for each effect once, and then for every operation. -/

namespace Sys2Proof.Machine

/-- The state without what the diagnostic traces hold. -/
def eraseTraces (s : State) : State := { s with conds := [], routed := [] }

/-- A result whose next state, if any, has its traces erased. -/
def eraseResult (r : Result) : Result := andThen r (fun s => .next (eraseTraces s))

/-- What `f` does apart from the traces is the same whatever the traces hold. -/
def IgnoresTraces (f : State → State) : Prop := ∀ s, eraseTraces (f s) = eraseTraces (f (eraseTraces s))

/-- `IgnoresTraces` for a function that may stop; it stops in the same way whatever the traces hold. -/
def ResultIgnoresTraces (f : State → Result) : Prop := ∀ s, eraseResult (f s) = eraseResult (f (eraseTraces s))

@[simp] theorem commandBuffer_eraseTraces (s : State) : commandBuffer (eraseTraces s) = commandBuffer s := rfl

@[simp] theorem eraseTraces_emit (e : Event) (s : State) : eraseTraces (emit e s) = emit e (eraseTraces s) := rfl
@[simp] theorem eraseTraces_record (k : Condition) (s : State) : eraseTraces (record k s) = eraseTraces s := rfl
@[simp] theorem eraseTraces_recordTrunc (b : Bool) (s : State) : eraseTraces (recordTrunc b s) = eraseTraces s := by
  cases b <;> rfl
@[simp] theorem eraseResult_next (s : State) : eraseResult (.next s) = .next (eraseTraces s) := rfl

/-- States that agree once their traces are erased differ in their traces alone. -/
theorem eq_of_eraseTraces_eq {u t : State} (h : eraseTraces u = eraseTraces t) :
    u = { t with conds := u.conds, routed := u.routed } := by
  cases u; cases t; cases h; rfl

/-! The shapes from which effects and operations are built. -/

theorem IgnoresTraces.comp {f g : State → State} (hf : IgnoresTraces f) (hg : IgnoresTraces g) :
    IgnoresTraces (fun s => f (g s)) := fun s => by
  rw [hf (g s), hg s, ← hf]

theorem IgnoresTraces.next {f : State → State} (hf : IgnoresTraces f) : ResultIgnoresTraces (fun s => .next (f s)) :=
  fun s => congrArg Host.Outcome.next (hf s)

theorem ResultIgnoresTraces.comp {f : State → Result} {g : State → State} (hf : ResultIgnoresTraces f)
    (hg : IgnoresTraces g) : ResultIgnoresTraces (fun s => f (g s)) := fun s => by
  rw [hf (g s), hg s, ← hf]

/-- A choice between effects by a condition that does not look at the traces. -/
theorem IgnoresTraces.ite {p : State → Prop} [DecidablePred p] {f g : State → State} (hf : IgnoresTraces f)
    (hg : IgnoresTraces g) (hp : ∀ s, p (eraseTraces s) = p s := by intro; rfl) :
    IgnoresTraces (fun s => if p s then f s else g s) := fun s => by
  by_cases h : p s
  · simpa only [hp, h, if_true] using hf s
  · simpa only [hp, h, if_false] using hg s

theorem ResultIgnoresTraces.ite {p : State → Prop} [DecidablePred p] {f g : State → Result}
    (hf : ResultIgnoresTraces f) (hg : ResultIgnoresTraces g)
    (hp : ∀ s, p (eraseTraces s) = p s := by intro; rfl) :
    ResultIgnoresTraces (fun s => if p s then f s else g s) := fun s => by
  by_cases h : p s
  · simpa only [hp, h, if_true] using hf s
  · simpa only [hp, h, if_false] using hg s

theorem ResultIgnoresTraces.onInstance {f : State → Result} (hf : ResultIgnoresTraces f) :
    ResultIgnoresTraces (fun s => onInstance s (f s)) := hf.ite (fun _ => rfl)

/-- A row that is one effect, under the check of the configuration. -/
theorem IgnoresTraces.onInstance {f : State → State} (hf : IgnoresTraces f) :
    ResultIgnoresTraces (fun s => onInstance s (.next (f s))) := hf.next.onInstance

/-- A row that acts on the command buffer held in the state. -/
theorem onCommand_ignoresTraces {f : List Byte → State → State} (hf : ∀ cb, IgnoresTraces (f cb)) :
    ResultIgnoresTraces (fun s => onCommand s f) := by
  refine ResultIgnoresTraces.onInstance fun s => ?_
  simp only [commandBuffer_eraseTraces]
  cases commandBuffer s with
  | none => rfl
  | some cb => exact (hf cb).next s

/-! The updates of one element, and the conditions. -/

theorem id_ignoresTraces : IgnoresTraces (fun s => s) := fun _ => rfl
theorem record_ignoresTraces (k : Condition) : IgnoresTraces (record k) := fun _ => rfl
theorem logRouted_ignoresTraces (cb : List Byte) : IgnoresTraces (logRouted cb) := fun _ => rfl
theorem setLen_ignoresTraces (n : Nat) : IgnoresTraces (setLen n) := fun _ => rfl
theorem setEsc_ignoresTraces (v : Bool) : IgnoresTraces (setEsc v) := fun _ => rfl
theorem storeCb_ignoresTraces (v : Byte) : IgnoresTraces (storeCb v) := fun _ => rfl
theorem returnEffect_ignoresTraces : IgnoresTraces returnEffect := fun _ => rfl
theorem recordEscAtDelim_ignoresTraces : IgnoresTraces recordEscAtDelim :=
  (record_ignoresTraces .escAtDelim).ite id_ignoresTraces

/-! The Frame Encoder. -/

theorem execEncodeReq_ignoresTraces (cmd : Nibble) (sel : Option Nibble) (p : List Byte) (cap : Nat) :
    ResultIgnoresTraces (execEncodeReq cmd sel p cap) :=
  ResultIgnoresTraces.onInstance fun s => by
    simp only [eraseResult_next, eraseTraces_recordTrunc]; rfl

theorem consumePayload_ignoresTraces (w : OutBuf → OutBuf) : IgnoresTraces (fun s => consumePayload s w) :=
  .ite (p := fun s => hasRoom s.out = true) (fun _ => rfl) (record_ignoresTraces .encTrunc)

/-! The Command Router and the Vendor Sub-Router. -/

theorem vendorUnknownEffect_ignoresTraces : IgnoresTraces vendorUnknownEffect := fun s => by
  simp only [vendorUnknownEffect, eraseTraces_emit, eraseTraces_recordTrunc, eraseTraces_record]; rfl

theorem dataEffect_ignoresTraces (cb : List Byte) : IgnoresTraces (dataEffect cb) :=
  id_ignoresTraces.ite (fun _ => rfl)

theorem txDelayEffect_ignoresTraces (cb : List Byte) : IgnoresTraces (txDelayEffect cb) :=
  .ite (fun _ => rfl) id_ignoresTraces

theorem routeVendor_ignoresTraces (vd : List Byte) : IgnoresTraces (routeVendor vd) := by
  cases vd with
  | nil => exact id_ignoresTraces
  | cons sub rest => exact id_ignoresTraces.ite (id_ignoresTraces.ite vendorUnknownEffect_ignoresTraces)

theorem vendorEffect_ignoresTraces (cb : List Byte) : IgnoresTraces (vendorEffect cb) :=
  id_ignoresTraces.ite (routeVendor_ignoresTraces _)

theorem routeOwn_ignoresTraces (cmd : Nibble) (cb : List Byte) : IgnoresTraces (routeOwn cmd cb) := fun s => by
  unfold routeOwn
  split
  case h_1 => exact dataEffect_ignoresTraces cb s
  case h_2 => exact txDelayEffect_ignoresTraces cb s
  case h_7 => exact vendorEffect_ignoresTraces cb s
  all_goals rfl

theorem route_ignoresTraces (cb : List Byte) : IgnoresTraces (route cb) := by
  cases cb with
  | nil => exact id_ignoresTraces
  | cons hdr data =>
    have hother := record_ignoresTraces .unaddressed
    exact returnEffect_ignoresTraces.ite ((hother.ite hother).ite (routeOwn_ignoresTraces _ _))

theorem addressed_ignoresTraces (port : Nibble) {f : State → State} (hf : IgnoresTraces f) :
    IgnoresTraces (addressed port f) := hf.ite (record_ignoresTraces .unaddressed)

/-! The Stream De-framer. -/

/-- DISPATCH may write both traces, and neither decides what it routes. -/
theorem dispatch_ignoresTraces : ResultIgnoresTraces dispatch := fun s => by
  simp only [dispatch, commandBuffer_eraseTraces]
  cases commandBuffer s with
  | none => rfl
  | some cb =>
    exact ((setEsc_ignoresTraces false).comp ((setLen_ignoresTraces 0).comp
      ((route_ignoresTraces cb).comp (logRouted_ignoresTraces cb)))).next s

theorem append_ignoresTraces (v : Byte) : ResultIgnoresTraces (append v) :=
  have hstore := storeCb_ignoresTraces v
  have hforced := dispatch_ignoresTraces.comp ((record_ignoresTraces .overflowTrunc).comp hstore)
  (hforced.ite hstore.next).ite (fun _ => rfl)

theorem feedEscEffect_ignoresTraces : IgnoresTraces feedEscEffect :=
  .ite (fun _ => rfl) (setEsc_ignoresTraces true)

theorem feedDelimEffect_ignoresTraces : ResultIgnoresTraces feedDelimEffect :=
  .ite (dispatch_ignoresTraces.comp ((setEsc_ignoresTraces false).comp recordEscAtDelim_ignoresTraces))
    ((setEsc_ignoresTraces false).ite id_ignoresTraces).next

theorem feedTransposed_ignoresTraces (d l : Byte) : ResultIgnoresTraces (feedTransposed d l) :=
  ((append_ignoresTraces d).comp (setEsc_ignoresTraces false)).ite (append_ignoresTraces l)

theorem feedOtherEffect_ignoresTraces (b : Byte) : ResultIgnoresTraces (feedOtherEffect b) :=
  .ite (fun _ => rfl) (append_ignoresTraces b)

/-! Every operation. -/

theorem exec_ignoresTraces (i : Instr) : ResultIgnoresTraces (exec i) := by
  cases i with
  | feedEsc => exact feedEscEffect_ignoresTraces.onInstance
  | feedDelim => exact feedDelimEffect_ignoresTraces.onInstance
  | feedTesc | feedTdelim => exact (feedTransposed_ignoresTraces _ _).onInstance
  | feedOther b => exact (feedOtherEffect_ignoresTraces b).onInstance
  | encodeReq cmd sel p cap => exact execEncodeReq_ignoresTraces cmd sel p cap
  | encStuffDelim | encStuffEsc | encLiteral b => exact (consumePayload_ignoresTraces _).onInstance
  | returnCli => exact returnEffect_ignoresTraces.onInstance
  | unaddressed | globalOther => exact (record_ignoresTraces .unaddressed).onInstance
  | data port => exact onCommand_ignoresTraces fun cb => addressed_ignoresTraces port (dataEffect_ignoresTraces cb)
  | txDelay port =>
    exact onCommand_ignoresTraces fun cb => addressed_ignoresTraces port (txDelayEffect_ignoresTraces cb)
  | vendor port => exact onCommand_ignoresTraces fun cb => addressed_ignoresTraces port (vendorEffect_ignoresTraces cb)
  | persist port | slotTime port | txTail port | fullDuplex port =>
    exact (addressed_ignoresTraces port id_ignoresTraces).onInstance
  | cmdUndef7 port | cmdUndef8 port | cmdUndef9 port | cmdUndef10 port | cmdUndef11 port | cmdUndef12 port
  | cmdUndef13 port | cmdUndef14 port | cmdReturnLocal port =>
    exact (addressed_ignoresTraces port (record_ignoresTraces .undefCmd)).onInstance
  | getRadioStats | signalReporting => exact id_ignoresTraces.onInstance
  | vendorUnknown => exact vendorUnknownEffect_ignoresTraces.onInstance

/-- Settles O42: both runs answer the same once the traces are erased, so they differ in the traces alone. -/
theorem tracesAreNeverRead : Obligations.TracesAreNeverRead := by
  unfold Obligations.TracesAreNeverRead
  intro i s t ks rs h
  have hrun : eraseResult (exec i { s with conds := ks, routed := rs }) = eraseResult (exec i s) :=
    (exec_ignoresTraces i _).trans (exec_ignoresTraces i s).symm
  rw [h] at hrun
  obtain ⟨u, hu, he⟩ := andThen_next.1 hrun
  injection he with he
  exact ⟨u.conds, u.routed, hu.trans (congrArg _ (eq_of_eraseTraces_eq he))⟩

end Sys2Proof.Machine
end

section
/-! PROOFS. The invariant (10_state.md R52, R31; 41_deframer.md R123; 20_memory.md R70): it holds after construction, and
each thing a step can do keeps it. -/

namespace Sys2Proof.Machine

/-- The invariant speaks of the configuration, the command buffer and the output buffer alone. -/
theorem Inv.congr {s t : State} (h : Inv s) (hcfg : t.cfg = s.cfg) (hcb : t.cb = s.cb) (hlen : t.len = s.len)
    (hout : t.out = s.out) : Inv t := by
  cases s; cases t; cases hcfg; cases hcb; cases hlen; cases hout
  exact ⟨h.legal, h.lenBound, h.held, h.cbWf, h.cbBelow, h.outWf, h.outBound, h.outBelow⟩

theorem construct_inv {c : Config} (h : c.legal = true) (m : Mode) : Inv (State.construct c m) where
  legal := h
  lenBound := by simpa using ((legal_iff c).1 h).1
  held := ⟨[], rfl⟩
  cbWf := List.Pairwise.nil
  cbBelow _ _ := rfl
  outWf := List.Pairwise.nil
  outBound := Nat.le_refl _
  outBelow _ _ := rfl

/-- Settles O4: an empty buffer meets every clause, and R184 gives `N >= 2`. -/
theorem constructionMeetsInv : Obligations.ConstructionMeetsInv :=
  ⟨fun _ m h => construct_inv h m, construct_inv rfl .cli⟩

/-! The de-framer. -/

/-- Emptying the frame in progress leaves the bytes of `CB` where they are. -/
theorem setLen_zero_inv {s : State} (h : Inv s) : Inv (setLen 0 s) :=
  { h with
    lenBound := by simpa using ((legal_iff s.cfg).1 h.legal).1
    held := ⟨[], rfl⟩ }

/-- The store of an APPEND lands at `len`, which is below index `N - 1`. -/
theorem storeCb_read_above {s : State} (h : Inv s) (v : Byte) (i : Nat) (hi : s.cfg.n ≤ i + 1) :
    Memory.read (storeCb v s).cb i = none := by
  have hlen := h.lenBound
  rw [storeCb_cb, read_write_other _ _ (by omega)]
  exact h.cbBelow i hi

/-- Below the capacity limit a stored byte extends the frame in progress. -/
theorem storeCb_inv {s : State} (h : Inv s) (v : Byte) (hlen : s.len + 2 < s.cfg.n) : Inv (storeCb v s) :=
  have ⟨_, hcb⟩ := h.held
  { h with
    lenBound := by simp only [storeCb_len, storeCb_cfg]; omega
    held := ⟨_, commandBuffer_storeCb v hcb⟩
    cbWf := storeCb_wf h.cbWf v
    cbBelow := storeCb_read_above h v }

/-- At the capacity limit the invariant holds again once the buffer is emptied. -/
theorem storeCb_setLen_zero_inv {s : State} (h : Inv s) (v : Byte) : Inv (setLen 0 (storeCb v s)) :=
  { setLen_zero_inv h with
    cbWf := storeCb_wf h.cbWf v
    cbBelow := storeCb_read_above h v }

/-- A dispatch empties the buffer and, of what the invariant speaks of, changes nothing else. -/
theorem Dispatched.inv {u t : State} (hd : Dispatched u t) (h : Inv (setLen 0 u)) : Inv t := by
  obtain ⟨hcfg, -, hcb, hout, hlen, -⟩ := hd.frame
  exact h.congr hcfg hcb hlen hout

theorem append_inv {s : State} (h : Inv s) (v : Byte) : ∃ t, append v s = .next t ∧ Inv t := by
  obtain ⟨cb, hcb⟩ := h.held
  rcases Nat.lt_or_eq_of_le h.lenBound with hlen | hlen
  · exact ⟨_, append_below v hlen, storeCb_inv h v hlen⟩
  · have hd : Dispatched (record .overflowTrunc (storeCb v s)) _ := ⟨_, commandBuffer_storeCb v hcb, rfl⟩
    exact ⟨_, append_forced v hlen hcb, hd.inv ((storeCb_setLen_zero_inv h v).congr rfl rfl rfl rfl)⟩

theorem feedEscEffect_inv {s : State} (h : Inv s) : Inv (feedEscEffect s) := by
  unfold feedEscEffect
  split
  · exact (setLen_zero_inv h).congr rfl rfl rfl rfl
  · exact h.congr rfl rfl rfl rfl

theorem feedDelimEffect_inv {s : State} (h : Inv s) : ∃ t, feedDelimEffect s = .next t ∧ Inv t := by
  obtain ⟨cb, hcb⟩ := h.held
  have hr : Inv (recordEscAtDelim s) ∧ commandBuffer (recordEscAtDelim s) = some cb := by
    unfold recordEscAtDelim
    split
    · exact ⟨h.congr rfl rfl rfl rfl, hcb⟩
    · exact ⟨h, hcb⟩
  unfold feedDelimEffect
  split
  · have hd : Dispatched (setEsc false (recordEscAtDelim s)) _ := ⟨_, hr.2, rfl⟩
    exact ⟨_, dispatch_of_held hr.2, hd.inv ((setLen_zero_inv hr.1).congr rfl rfl rfl rfl)⟩
  · refine ⟨_, rfl, ?_⟩
    split
    · exact h.congr rfl rfl rfl rfl
    · exact h

/-- Every FEED operation answers from the invariant, and in it. -/
theorem feedRow_inv {i : Instr} {s : State} (hf : formatOf i = .rxByte) (h : Inv s) :
    ∃ t, exec i s = .next t ∧ Inv t := by
  have hclear : Inv (setEsc false s) := h.congr rfl rfl rfl rfl
  cases i with
  | feedEsc => exact ⟨_, onInstance_legal h.legal _, feedEscEffect_inv h⟩
  | feedDelim =>
    obtain ⟨t, ht, hi⟩ := feedDelimEffect_inv h
    exact ⟨t, (onInstance_legal h.legal _).trans ht, hi⟩
  | feedTesc | feedTdelim =>
    obtain ⟨t, ht, hi⟩ := append_inv hclear _
    exact ⟨t, (onInstance_legal h.legal _).trans ((feedTransposed_eq _ _ s).trans ht), hi⟩
  | feedOther b =>
    have hb : ∃ t, feedOtherEffect b s = .next t ∧ Inv t := by
      unfold feedOtherEffect
      split
      · exact ⟨_, rfl, h.congr rfl rfl rfl rfl⟩
      · exact append_inv h b
    obtain ⟨t, ht, hi⟩ := hb
    exact ⟨t, (onInstance_legal h.legal _).trans ht, hi⟩
  | _ => simp [formatOf] at hf

/-! The encoder. -/

/-- ENCODE writes from the start of its buffer on, and nowhere else. -/
theorem runEncode_wrote (c : Config) (cmd : Nibble) (sel : Option Nibble) (p : List Byte) (cap : Nat) (mem : Memory) :
    ∃ bs, Wrote { mem := mem, olen := 0, cap := cap } (runEncode c cmd sel p cap mem).1 bs := by
  by_cases hcap : cap < 3
  · exact ⟨[], by simpa [runEncode, hcap] using Wrote.refl _⟩
  · obtain ⟨_, -, hw, -⟩ := runEncode_spec c cmd sel p mem (Nat.not_lt.1 hcap)
    exact ⟨_, hw⟩

/-- An encode request in the buffer its caller supplied. -/
theorem encodeReq_inv {s t : State} {cmd : Nibble} {sel : Option Nibble} {p : List Byte} {cap : Nat} {ob : List Byte}
    (h : Inv s) (he : exec (.encodeReq cmd sel p cap) (supplyBuffer ob cap s) = .next t) : Inv t := by
  obtain ⟨-, o, ks, -, ho, rfl⟩ := encodeReq_next he
  obtain ⟨bs, hw⟩ := runEncode_wrote s.cfg cmd sel p cap (Memory.ofBytes 0 (ob.take cap))
  have hle := runEncode_olen_le s.cfg cmd sel p cap (Memory.ofBytes 0 (ob.take cap))
  rw [supplyBuffer_cfg, supplyBuffer_out] at ho
  rw [← ho] at hw hle
  have hcap : o.cap = cap := hw.cap
  have holen : o.olen = 0 + bs.length := hw.olen
  exact
    { h with
      outWf := hw.wf (ofBytes_wf _ _)
      outBound := hcap ▸ hle
      outBelow := fun i hi => by
        have hi' : cap ≤ i := hcap ▸ hi
        refine (hw.other i (.inr (by simp only; omega))).trans ?_
        rw [← supplyBuffer_out ob cap s, supplyBuffer_read, if_neg (by omega)] }

/-! A step. -/

theorem step_inv {s t : State} (h : Inv s) (hs : step s = .next t) : Inv t := by
  have htake : ∀ f rest, Inv (takeInput f rest s) := fun _ _ => h.congr rfl rfl rfl rfl
  obtain ⟨-, ⟨-, rfl⟩ | ⟨b, f, rest, -, ⟨-, he⟩ | ⟨-, rfl⟩⟩ | ⟨_, _, _, _, _, rest, -, he⟩ | ⟨m, rest, -, rfl⟩⟩ :=
    step_cases hs
  case inl => exact h
  case inr.inl.inl =>
    obtain ⟨u, hu, hi⟩ := feedRow_inv (formatOf_decodeRx b) (htake f rest)
    cases hu.symm.trans he
    exact hi
  case inr.inl.inr => exact htake f rest
  case inr.inr.inl => exact encodeReq_inv (htake false rest) he
  case inr.inr.inr => exact (htake false rest).congr rfl rfl rfl rfl

/-- Settles O45: each of the things a step can do keeps the invariant. -/
theorem stepKeepsInv : Obligations.StepKeepsInv := fun _ _ => step_inv

end Sys2Proof.Machine
end

section
/-! PROOFS. What the outside drives the block by, the inputs not yet consumed and the input gate (`MODE` and the marker
of a Return), is read by no operation (10_state.md R36, R49; log entries 1, 9). The one thing an operation can do to it is
a Return. Like the noninterference of the traces, this is kept by composition: shown for each effect once, then for
every operation. -/

namespace Sys2Proof.Machine

/-- The state with other inputs left, and another state of the input gate. -/
def setDrive (is : List Input) (m : Mode) (r : Bool) (s : State) : State :=
  { s with inputs := is, mode := m, returnInRead := r }

/-- The mode after an operation that performs a Return (`ret`), or does not. -/
def modeAfter (ret : Bool) (m : Mode) : Mode := if ret then .cli else m

/-- `f` does not read the inputs or the gate: what it does otherwise, and whether it performs a Return, is the same
whatever they are. -/
def IgnoresDrive (f : State → State) : Prop :=
  ∀ s, ∃ ret : Bool, ∀ is m r, f (setDrive is m r s) = setDrive is (modeAfter ret m) (ret || r) (f s)

/-- `IgnoresDrive` for a function that may stop; it stops in the same way whatever the inputs and the gate are. -/
def ResultIgnoresDrive (f : State → Result) : Prop :=
  ∀ s, ∃ ret : Bool, ∀ is m r,
    f (setDrive is m r s) = andThen (f s) fun t => .next (setDrive is (modeAfter ret m) (ret || r) t)

/-- Two effects perform a Return if one of them does. -/
theorem setDrive_modeAfter (ret ret' : Bool) (is : List Input) (m : Mode) (r : Bool) (s : State) :
    setDrive is (modeAfter ret' (modeAfter ret m)) (ret' || (ret || r)) s =
      setDrive is (modeAfter (ret' || ret) m) ((ret' || ret) || r) s := by
  cases ret' <;> rfl

/-! The shapes from which effects and operations are built. -/

/-- An effect that performs no Return. -/
theorem IgnoresDrive.of_comm {f : State → State} (hf : ∀ is m r s, f (setDrive is m r s) = setDrive is m r (f s)) :
    IgnoresDrive f := fun s => ⟨false, fun is m r => hf is m r s⟩

theorem IgnoresDrive.comp {f g : State → State} (hf : IgnoresDrive f) (hg : IgnoresDrive g) :
    IgnoresDrive (fun s => f (g s)) := fun s => by
  obtain ⟨ret, hg⟩ := hg s
  obtain ⟨ret', hf⟩ := hf (g s)
  exact ⟨ret' || ret, fun is m r => by simp only [hg, hf, setDrive_modeAfter]⟩

theorem IgnoresDrive.next {f : State → State} (hf : IgnoresDrive f) : ResultIgnoresDrive (fun s => .next (f s)) :=
  fun s => (hf s).imp fun _ h is m r => congrArg Host.Outcome.next (h is m r)

theorem ResultIgnoresDrive.comp {f : State → Result} {g : State → State} (hf : ResultIgnoresDrive f)
    (hg : IgnoresDrive g) : ResultIgnoresDrive (fun s => f (g s)) := fun s => by
  obtain ⟨ret, hg⟩ := hg s
  obtain ⟨ret', hf⟩ := hf (g s)
  exact ⟨ret' || ret, fun is m r => by simp only [hg, hf, setDrive_modeAfter]⟩

/-- Stopping with the same fault or refusal everywhere. -/
theorem ResultIgnoresDrive.of_stop {r : Result} (hr : ∀ f, r = andThen r f) : ResultIgnoresDrive (fun _ => r) :=
  fun _ => ⟨false, fun _ _ _ => hr _⟩

/-- A choice between effects by a condition that does not look at the inputs or the gate. -/
theorem IgnoresDrive.ite {p : State → Prop} [DecidablePred p] {f g : State → State} (hf : IgnoresDrive f)
    (hg : IgnoresDrive g) (hp : ∀ is m r s, p (setDrive is m r s) = p s := by intros; rfl) :
    IgnoresDrive (fun s => if p s then f s else g s) := fun s => by
  by_cases h : p s
  · simpa only [hp, h, if_true] using hf s
  · simpa only [hp, h, if_false] using hg s

theorem ResultIgnoresDrive.ite {p : State → Prop} [DecidablePred p] {f g : State → Result}
    (hf : ResultIgnoresDrive f) (hg : ResultIgnoresDrive g)
    (hp : ∀ is m r s, p (setDrive is m r s) = p s := by intros; rfl) :
    ResultIgnoresDrive (fun s => if p s then f s else g s) := fun s => by
  by_cases h : p s
  · simpa only [hp, h, if_true] using hf s
  · simpa only [hp, h, if_false] using hg s

theorem ResultIgnoresDrive.onInstance {f : State → Result} (hf : ResultIgnoresDrive f) :
    ResultIgnoresDrive (fun s => onInstance s (f s)) :=
  hf.ite (.of_stop fun _ => rfl)

/-- A row that is one effect, under the check of the configuration. -/
theorem IgnoresDrive.onInstance {f : State → State} (hf : IgnoresDrive f) :
    ResultIgnoresDrive (fun s => onInstance s (.next (f s))) := hf.next.onInstance

@[simp] theorem commandBuffer_setDrive (is : List Input) (m : Mode) (r : Bool) (s : State) :
    commandBuffer (setDrive is m r s) = commandBuffer s := rfl

/-- An effect of the command buffer held in the state. -/
theorem heldBuffer_ignoresDrive {f : List Byte → State → State} (hf : ∀ cb, IgnoresDrive (f cb)) :
    ResultIgnoresDrive (fun s =>
      match commandBuffer s with
      | none => .fault .cbUnwritten
      | some cb => .next (f cb s)) := fun s => by
  simp only [commandBuffer_setDrive]
  cases commandBuffer s with
  | none => exact ResultIgnoresDrive.of_stop (fun _ => rfl) s
  | some cb => exact (hf cb).next s

theorem onCommand_ignoresDrive {f : List Byte → State → State} (hf : ∀ cb, IgnoresDrive (f cb)) :
    ResultIgnoresDrive (fun s => onCommand s f) := (heldBuffer_ignoresDrive hf).onInstance

/-! The effects. -/

theorem id_ignoresDrive : IgnoresDrive (fun s => s) := .of_comm fun _ _ _ _ => rfl
theorem record_ignoresDrive (k : Condition) : IgnoresDrive (record k) := .of_comm fun _ _ _ _ => rfl
theorem logRouted_ignoresDrive (cb : List Byte) : IgnoresDrive (logRouted cb) := .of_comm fun _ _ _ _ => rfl
theorem setLen_ignoresDrive (n : Nat) : IgnoresDrive (setLen n) := .of_comm fun _ _ _ _ => rfl
theorem setEsc_ignoresDrive (v : Bool) : IgnoresDrive (setEsc v) := .of_comm fun _ _ _ _ => rfl
theorem storeCb_ignoresDrive (v : Byte) : IgnoresDrive (storeCb v) := .of_comm fun _ _ _ _ => rfl
theorem recordEscAtDelim_ignoresDrive : IgnoresDrive recordEscAtDelim :=
  (record_ignoresDrive .escAtDelim).ite id_ignoresDrive

theorem recordTrunc_ignoresDrive (trunc : Bool) : IgnoresDrive (recordTrunc trunc) := by
  cases trunc
  · exact id_ignoresDrive
  · exact record_ignoresDrive .encTrunc

/-- RETURN is the one effect that writes the gate. -/
theorem returnEffect_ignoresDrive : IgnoresDrive returnEffect := fun _ => ⟨true, fun _ _ _ => rfl⟩

theorem encode_ignoresDrive (cmd : Nibble) (sel : Option Nibble) (p : List Byte) (cap : Nat) :
    IgnoresDrive (fun s => recordTrunc (runEncode s.cfg cmd sel p cap s.out.mem).2
      (setOut (runEncode s.cfg cmd sel p cap s.out.mem).1 s)) := fun s =>
  recordTrunc_ignoresDrive (runEncode s.cfg cmd sel p cap s.out.mem).2
    (setOut (runEncode s.cfg cmd sel p cap s.out.mem).1 s)

theorem consumePayload_ignoresDrive (w : OutBuf → OutBuf) : IgnoresDrive (fun s => consumePayload s w) :=
  .ite (p := fun s => hasRoom s.out = true) (.of_comm fun _ _ _ _ => rfl) (record_ignoresDrive .encTrunc)

theorem vendorUnknownEffect_ignoresDrive : IgnoresDrive vendorUnknownEffect := fun s => by
  obtain ⟨ret, h⟩ := recordTrunc_ignoresDrive (vendorReply s.cfg).2 (record .unknownVendor s)
  exact ⟨ret, fun is m r => congrArg (emit (.txWrite (vendorReply s.cfg).1.bytes)) (h is m r)⟩

theorem dataEffect_ignoresDrive (cb : List Byte) : IgnoresDrive (dataEffect cb) :=
  id_ignoresDrive.ite (.of_comm fun _ _ _ _ => rfl)

theorem txDelayEffect_ignoresDrive (cb : List Byte) : IgnoresDrive (txDelayEffect cb) :=
  .ite (.of_comm fun _ _ _ _ => rfl) id_ignoresDrive

theorem routeVendor_ignoresDrive (vd : List Byte) : IgnoresDrive (routeVendor vd) := by
  cases vd with
  | nil => exact id_ignoresDrive
  | cons sub rest => exact id_ignoresDrive.ite (id_ignoresDrive.ite vendorUnknownEffect_ignoresDrive)

theorem vendorEffect_ignoresDrive (cb : List Byte) : IgnoresDrive (vendorEffect cb) :=
  id_ignoresDrive.ite (routeVendor_ignoresDrive _)

theorem routeOwn_ignoresDrive (cmd : Nibble) (cb : List Byte) : IgnoresDrive (routeOwn cmd cb) := fun s => by
  unfold routeOwn
  split
  case h_1 => exact dataEffect_ignoresDrive cb s
  case h_2 => exact txDelayEffect_ignoresDrive cb s
  case h_7 => exact vendorEffect_ignoresDrive cb s
  case h_3 | h_4 | h_5 | h_6 => exact id_ignoresDrive s
  all_goals exact record_ignoresDrive .undefCmd s

theorem route_ignoresDrive (cb : List Byte) : IgnoresDrive (route cb) := by
  cases cb with
  | nil => exact id_ignoresDrive
  | cons hdr data =>
    have hother := record_ignoresDrive .unaddressed
    exact returnEffect_ignoresDrive.ite ((hother.ite hother).ite (routeOwn_ignoresDrive _ _))

theorem addressed_ignoresDrive (port : Nibble) {f : State → State} (hf : IgnoresDrive f) :
    IgnoresDrive (addressed port f) := hf.ite (record_ignoresDrive .unaddressed)

theorem dispatch_ignoresDrive : ResultIgnoresDrive dispatch :=
  heldBuffer_ignoresDrive fun cb => (setEsc_ignoresDrive false).comp
    ((setLen_ignoresDrive 0).comp ((route_ignoresDrive cb).comp (logRouted_ignoresDrive cb)))

theorem append_ignoresDrive (v : Byte) : ResultIgnoresDrive (append v) :=
  have hstore := storeCb_ignoresDrive v
  have hforced := dispatch_ignoresDrive.comp ((record_ignoresDrive .overflowTrunc).comp hstore)
  (hforced.ite hstore.next).ite (.of_stop fun _ => rfl)

theorem feedEscEffect_ignoresDrive : IgnoresDrive feedEscEffect :=
  .ite (.of_comm fun _ _ _ _ => rfl) (setEsc_ignoresDrive true)

theorem feedDelimEffect_ignoresDrive : ResultIgnoresDrive feedDelimEffect :=
  .ite (dispatch_ignoresDrive.comp ((setEsc_ignoresDrive false).comp recordEscAtDelim_ignoresDrive))
    ((setEsc_ignoresDrive false).ite id_ignoresDrive).next

theorem feedTransposed_ignoresDrive (d l : Byte) : ResultIgnoresDrive (feedTransposed d l) :=
  ((append_ignoresDrive d).comp (setEsc_ignoresDrive false)).ite (append_ignoresDrive l)

theorem feedOtherEffect_ignoresDrive (b : Byte) : ResultIgnoresDrive (feedOtherEffect b) :=
  .ite (IgnoresDrive.next (.of_comm fun _ _ _ _ => rfl)) (append_ignoresDrive b)

/-! Every operation. -/

theorem exec_ignoresDrive (i : Instr) : ResultIgnoresDrive (exec i) := by
  cases i with
  | feedEsc => exact feedEscEffect_ignoresDrive.onInstance
  | feedDelim => exact feedDelimEffect_ignoresDrive.onInstance
  | feedTesc | feedTdelim => exact (feedTransposed_ignoresDrive _ _).onInstance
  | feedOther b => exact (feedOtherEffect_ignoresDrive b).onInstance
  | encodeReq cmd sel p cap => exact (encode_ignoresDrive cmd sel p cap).onInstance
  | encStuffDelim | encStuffEsc | encLiteral b => exact (consumePayload_ignoresDrive _).onInstance
  | returnCli => exact returnEffect_ignoresDrive.onInstance
  | unaddressed | globalOther => exact (record_ignoresDrive .unaddressed).onInstance
  | data port => exact onCommand_ignoresDrive fun cb => addressed_ignoresDrive port (dataEffect_ignoresDrive cb)
  | txDelay port => exact onCommand_ignoresDrive fun cb => addressed_ignoresDrive port (txDelayEffect_ignoresDrive cb)
  | vendor port => exact onCommand_ignoresDrive fun cb => addressed_ignoresDrive port (vendorEffect_ignoresDrive cb)
  | persist port | slotTime port | txTail port | fullDuplex port =>
    exact (addressed_ignoresDrive port id_ignoresDrive).onInstance
  | cmdUndef7 port | cmdUndef8 port | cmdUndef9 port | cmdUndef10 port | cmdUndef11 port | cmdUndef12 port
  | cmdUndef13 port | cmdUndef14 port | cmdReturnLocal port =>
    exact (addressed_ignoresDrive port (record_ignoresDrive .undefCmd)).onInstance
  | getRadioStats | signalReporting => exact id_ignoresDrive.onInstance
  | vendorUnknown => exact vendorUnknownEffect_ignoresDrive.onInstance

/-- What an operation does to the inputs and the gate, and how it runs under others: the same but for them. -/
theorem exec_setDrive {i : Instr} {s t : State} (h : exec i s = .next t) :
    ∃ ret, t.inputs = s.inputs ∧ t.mode = modeAfter ret s.mode ∧ t.returnInRead = (ret || s.returnInRead) ∧
      ∀ is m r, exec i (setDrive is m r s) = .next (setDrive is (modeAfter ret m) (ret || r) t) := by
  obtain ⟨ret, hrun⟩ := exec_ignoresDrive i s
  simp only [h, andThen_of_next] at hrun
  have hself : exec i s = _ := hrun s.inputs s.mode s.returnInRead
  have ht : t = setDrive s.inputs (modeAfter ret s.mode) (ret || s.returnInRead) t := by
    rw [h] at hself
    injection hself
  exact ⟨ret, (congrArg State.inputs ht :), (congrArg State.mode ht :), (congrArg State.returnInRead ht :), hrun⟩

theorem modeAfter_cases (ret : Bool) (m : Mode) : modeAfter ret m = m ∨ modeAfter ret m = .cli := by
  cases ret
  · exact .inl rfl
  · exact .inr rfl

/-- Settles O41: an operation either leaves the mode it finds or, performing a Return, writes CLI. -/
theorem modeIsNeverRead : Obligations.ModeIsNeverRead := by
  unfold Obligations.ModeIsNeverRead
  intro i s t m h
  obtain ⟨ret, hinputs, hmode, hmark, hrun⟩ := exec_setDrive h
  refine ⟨hmode ▸ modeAfter_cases ret s.mode, modeAfter ret m, modeAfter_cases ret m, ?_⟩
  refine (hrun s.inputs m s.returnInRead).trans ?_
  rw [← hinputs, ← hmark]
  rfl

end Sys2Proof.Machine
end

section
/-! PROOFS. What an operation or a step leaves as it is: the escape flag (10_state.md R40), the inputs and the
configuration (R54, 20_memory.md R58), and what only a routed buffer changes (R34, R48). -/

namespace Sys2Proof.Machine

/-! The escape flag. -/

theorem append_esc {s t : State} {v : Byte} (h : append v s = .next t) : t.esc = s.esc ∨ t.esc = false := by
  rcases append_next h with rfl | ⟨_, -, rfl⟩
  · exact .inl rfl
  · exact .inr rfl

theorem feedDelimEffect_esc {s t : State} (h : feedDelimEffect s = .next t) : t.esc = s.esc ∨ t.esc = false := by
  unfold feedDelimEffect at h
  split at h
  · obtain ⟨_, -, rfl⟩ := dispatch_next.1 h
    exact .inr rfl
  · injection h with h
    subst h
    split
    · exact .inr rfl
    · exact .inl rfl

theorem feedRow_esc {i : Instr} {s t : State} (hf : formatOf i = .rxByte) (hi : i ≠ .feedEsc)
    (h : exec i s = .next t) : t.esc = s.esc ∨ t.esc = false := by
  cases i with
  | feedEsc => exact absurd rfl hi
  | feedDelim => exact feedDelimEffect_esc (onInstance_next.1 h).2
  | feedTesc | feedTdelim =>
    have h := (onInstance_next.1 h).2
    rw [feedTransposed_eq] at h
    exact .inr ((append_esc h).elim id id)
  | feedOther b =>
    have h := (onInstance_next.1 h).2
    unfold feedOtherEffect at h
    split at h
    · injection h with h
      exact .inr (h ▸ rfl)
    · exact append_esc h
  | _ => simp [formatOf] at hf

theorem headerRow_esc {i : Instr} {s t : State} (hf : formatOf i = .header8 ∨ formatOf i = .vendorSubcmd8)
    (h : exec i s = .next t) : t.esc = s.esc ∨ t.esc = false := by
  rcases headerRow_cases hf h with rfl | ⟨_, rfl⟩ | ⟨-, rfl⟩ | ⟨-, _, rfl⟩ | ⟨-, _, rfl⟩ | ⟨-, rfl⟩
  case inr.inr.inl => exact .inr rfl
  case inr.inr.inr.inr.inr =>
    obtain ⟨-, -, -, -, -, -, -, hesc, -⟩ := vendorUnknownEffect_frame s
    exact .inl hesc
  all_goals exact .inl rfl

/-- An encoder row writes the output buffer and the condition trace alone (40_encoder.md R98). -/
theorem encoderRow_frame {i : Instr} {s t : State} (hf : formatOf i = .encRequest ∨ formatOf i = .encPayloadByte)
    (h : exec i s = .next t) : t = { s with out := t.out, conds := t.conds } := by
  have hrow : ∀ w, t = consumePayload s w → t = { s with out := t.out, conds := t.conds } := by
    intro w ht
    rcases consumePayload_cases s w with ⟨-, e⟩ | ⟨-, e⟩ <;> rw [ht, e] <;> rfl
  cases i with
  | encodeReq cmd sel p cap =>
    obtain ⟨-, _, _, -, -, rfl⟩ := encodeReq_next h
    rfl
  | encStuffDelim | encStuffEsc | encLiteral b => exact hrow _ (onInstance_next_eq h)
  | _ => simp [formatOf] at hf

/-- Settles O40: every operation but FEED_ESC keeps the escape flag or clears it. -/
theorem escSetOnlyByFeedEsc : Obligations.EscSetOnlyByFeedEsc := by
  unfold Obligations.EscSetOnlyByFeedEsc
  intro i s t h hs ht
  by_contra hi
  have hesc : t.esc = s.esc ∨ t.esc = false := by
    cases hf : formatOf i with
    | rxByte => exact feedRow_esc hf hi h
    | header8 => exact headerRow_esc (.inl hf) h
    | vendorSubcmd8 => exact headerRow_esc (.inr hf) h
    | encRequest => exact .inl (congrArg State.esc (encoderRow_frame (.inl hf) h) :)
    | encPayloadByte => exact .inl (congrArg State.esc (encoderRow_frame (.inr hf) h) :)
  simp [hs, ht] at hesc

/-! The inputs and the configuration. -/

theorem step_inputs_cfg {s t : State} (h : step s = .next t) : t.inputs = s.inputs.tail ∧ t.cfg = s.cfg := by
  obtain ⟨-, ⟨hi, rfl⟩ | ⟨b, f, rest, hi, ⟨-, he⟩ | ⟨-, rfl⟩⟩ | ⟨_, _, _, _, _, rest, hi, he⟩ | ⟨m, rest, hi, rfl⟩⟩ :=
    step_cases h <;> rw [hi]
  case inr.inl.inl =>
    obtain ⟨hcfg, hinputs, -⟩ := feed_frame (formatOf_decodeRx b) he
    exact ⟨hinputs, hcfg⟩
  case inr.inr.inl =>
    obtain ⟨-, _, _, -, -, rfl⟩ := encodeReq_next he
    exact ⟨rfl, rfl⟩
  all_goals exact ⟨rfl, rfl⟩

/-- Settles O51: every kind of step takes the head of the inputs, and no operation writes what is left of them. -/
theorem stepTakesOneInputAndKeepsConfig : Obligations.StepTakesOneInputAndKeepsConfig := fun _ _ => step_inputs_cfg

/-! What only a routed buffer changes. -/

/-- `t` has the configuration, the events, the delay and the routed buffers of `s`. -/
structure SameOutput (s t : State) : Prop where
  cfg : t.cfg = s.cfg
  events : t.events = s.events
  txdelay : t.txdelay = s.txdelay
  routed : t.routed = s.routed

theorem recordEscAtDelim_sameOutput (s : State) : SameOutput s (recordEscAtDelim s) := by
  unfold recordEscAtDelim
  split <;> exact ⟨rfl, rfl, rfl, rfl⟩

/-- A FEED operation routes nothing, or dispatches a buffer. -/
theorem feed_output {i : Instr} {s t : State} (hf : formatOf i = .rxByte) (h : exec i s = .next t) :
    SameOutput s t ∨ ∃ u, SameOutput s u ∧ Dispatched u t := by
  obtain ⟨-, ⟨_, _, _, -, -, rfl⟩ | ⟨v, rfl⟩ | ⟨-, -, hd⟩ | ⟨v, hd⟩⟩ := feed_cases hf h
  · exact .inl ⟨rfl, rfl, rfl, rfl⟩
  · exact .inl ⟨rfl, rfl, rfl, rfl⟩
  · obtain ⟨hcfg, hevents, hdelay, hrouted⟩ := recordEscAtDelim_sameOutput s
    refine .inr ⟨_, ?_, hd⟩
    exact ⟨hcfg, hevents, hdelay, hrouted⟩
  · refine .inr ⟨_, ?_, hd⟩
    exact ⟨rfl, rfl, rfl, rfl⟩

/-- A step routes nothing, or dispatches one buffer. -/
theorem step_output {s t : State} (h : step s = .next t) :
    SameOutput s t ∨ ∃ u, SameOutput s u ∧ Dispatched u t := by
  obtain ⟨-, ⟨-, rfl⟩ | ⟨b, f, rest, -, ⟨-, he⟩ | ⟨-, rfl⟩⟩ | ⟨_, _, _, _, _, rest, -, he⟩ | ⟨m, rest, -, rfl⟩⟩ :=
    step_cases h
  case inr.inl.inl =>
    rcases feed_output (formatOf_decodeRx b) he with hsame | ⟨u, hsame, hd⟩
    · exact .inl ⟨hsame.cfg, hsame.events, hsame.txdelay, hsame.routed⟩
    · exact .inr ⟨u, ⟨hsame.cfg, hsame.events, hsame.txdelay, hsame.routed⟩, hd⟩
  case inr.inr.inl =>
    obtain ⟨-, _, _, -, -, rfl⟩ := encodeReq_next he
    exact .inl ⟨rfl, rfl, rfl, rfl⟩
  all_goals exact .inl ⟨rfl, rfl, rfl, rfl⟩

/-- `route` writes the delay for an own-port TxDelay header with data, and for nothing else (42_router.md R137). -/
theorem route_txdelay (cb : List Byte) (s : State) :
    (route cb s).txdelay = s.txdelay ∨
    ∃ data, data ≠ [] ∧ cb = headerByte s.cfg.myPort 1#4 :: data ∧
      (route cb s).txdelay = txdelayParse s.cfg data * 10#32 := by
  rcases route_cases cb s with e | ⟨_, -, e⟩ | ⟨_, -, e⟩ | ⟨_, -, -, e⟩ | ⟨data, hd, hcb, e⟩ | ⟨_, _, -, -, -, e⟩ <;>
    rw [e]
  case inr.inr.inr.inr.inl => exact .inr ⟨data, hd, hcb, rfl⟩
  case inr.inr.inr.inr.inr =>
    obtain ⟨-, -, -, -, -, hdelay, -⟩ := vendorUnknownEffect_frame s
    exact .inl hdelay
  all_goals exact .inl rfl

/-- Settles O50: the delay changes only in a dispatch, and there only by `route`. -/
theorem delayChangedOnlyByTxDelay : Obligations.DelayChangedOnlyByTxDelay := by
  unfold Obligations.DelayChangedOnlyByTxDelay
  intro s t h hne
  rcases step_output h with hsame | ⟨u, hsame, cb, -, rfl⟩
  · exact absurd hsame.txdelay hne
  · rcases route_txdelay cb (logRouted cb u) with e | ⟨data, hdata, hcb, e⟩
    · exact absurd (e.trans hsame.txdelay) hne
    · rw [logRouted_cfg, hsame.cfg] at hcb e
      exact ⟨data, hdata, by simp [hsame.routed, ← hcb], e⟩

/-- The TX stream follows the event history. -/
theorem txStream_of_events {s t : State} {es : List Event} (h : t.events = s.events ++ es) :
    ∃ bs, txStream t = txStream s ++ bs := by
  unfold txStream
  rw [h, List.flatMap_append]
  exact ⟨_, rfl⟩

/-- Settles O52: events are added by `route` alone, which adds at most one. -/
theorem eventHistoryOnlyGrows : Obligations.EventHistoryOnlyGrows := by
  unfold Obligations.EventHistoryOnlyGrows
  intro s t h
  have hgrow : ∃ es, t.events = s.events ++ es ∧ es.length ≤ 1 := by
    rcases step_output h with hsame | ⟨u, hsame, cb, -, rfl⟩
    · exact ⟨[], by simp [hsame.events], by simp⟩
    · obtain ⟨es, hes, hlen⟩ := route_events cb (logRouted cb u)
      exact ⟨es, by simp [hes, hsame.events], hlen⟩
  obtain ⟨es, hes, hlen⟩ := hgrow
  exact ⟨es, hes, hlen, txStream_of_events hes⟩

end Sys2Proof.Machine
end

section
/-! PROOFS. The input gate and the run of a transport read (10_state.md R43 to R45, R49; 41_deframer.md R126;
70_reset_and_hazards.md R199). -/

namespace Sys2Proof.Machine

/-- Settles O3: construction writes each field out. -/
theorem resetGivesSpecValues : Obligations.ResetGivesSpecValues :=
  fun _ _ => ⟨rfl, rfl, fun _ => rfl, rfl, rfl, rfl, rfl, rfl⟩

/-! What a step does with each kind of input. -/

theorem step_idle {s : State} (hl : s.cfg.legal = true) (hi : s.inputs = []) : step s = .next s := by
  simp [step, serveInput, onInstance_legal hl, hi]

theorem step_encode {s : State} {cmd : Nibble} {sel : Option Nibble} {p : List Byte} {cap : Nat} {ob : List Byte}
    {rest : List Input} (hl : s.cfg.legal = true) (hi : s.inputs = .encode cmd sel p cap ob :: rest) :
    step s = exec (.encodeReq cmd sel p cap) (supplyBuffer ob cap (takeInput false rest s)) := by
  simp [step, serveInput, onInstance_legal hl, hi]

theorem step_hostMode {s : State} {m : Mode} {rest : List Input} (hl : s.cfg.legal = true)
    (hi : s.inputs = .hostMode m :: rest) : step s = .next (setMode m (takeInput false rest s)) := by
  simp [step, serveInput, onInstance_legal hl, hi]

/-- The gate is closed in CLI mode, unless CONTINUE keeps it open for the rest of the read that held a Return. -/
theorem gateOpen_eq_false_iff (s : State) :
    gateOpen s = false ↔ s.mode = .cli ∧ (s.cfg.gateAfterReturn = .stop ∨ s.returnInRead = false) := by
  cases hm : s.mode <;> cases hg : s.cfg.gateAfterReturn <;> simp [gateOpen, hm, hg]

theorem gateOpen_of_kiss {s : State} (h : s.mode = .kiss) : gateOpen s = true := by simp [gateOpen, h]

theorem gateOpen_of_continue {s : State} (hg : s.cfg.gateAfterReturn = .continueRead) (hr : s.returnInRead = true) :
    gateOpen s = true := by simp [gateOpen, hg, hr]

theorem offerByte_closed {s : State} (h : gateOpen s = false) (b : Byte) : offerByte b s = .next s := by
  simp [offerByte, h]

theorem offerByte_open {s : State} (h : gateOpen s = true) (b : Byte) : offerByte b s = feed b s := by
  simp [offerByte, h]

/-- Settles O6: the first byte of a read clears the mark of a Return before the gate is asked. -/
theorem stepClosedGateLeavesBlock : Obligations.StepClosedGateLeavesBlock := by
  unfold Obligations.StepClosedGateLeavesBlock
  intro s b first rest hl hi hm hg
  have hmark : s.cfg.gateAfterReturn = .stop ∨ (takeInput first rest s).returnInRead = false :=
    hg.imp_right fun h => by rcases h with rfl | h <;> simp [*]
  exact (step_byte hl hi).trans (offerByte_closed ((gateOpen_eq_false_iff (takeInput first rest s)).2 ⟨hm, hmark⟩) b)

/-- Settles O7: no gate stands before an encode request. -/
theorem stepServesEncodeRequest : Obligations.StepServesEncodeRequest :=
  fun _ _ _ _ _ _ _ hl hi => step_encode hl hi

/-- Settles O8: taking an input that is no first byte of a read keeps the read marker. -/
theorem stepHostModeWrite : Obligations.StepHostModeWrite := fun _ _ _ hl hi => step_hostMode hl hi

/-- Settles O9, with the case of no input. -/
theorem idleStepKeepsState : Obligations.IdleStepKeepsState := fun _ hl hi => step_idle hl hi

/-! Draining. -/

theorem drainRest_stop_cli {s : State} (hg : s.cfg.gateAfterReturn = .stop) (hm : s.mode = .cli) (bs : List Byte) :
    drainRest bs s = .next s :=
  drainRest_closed ((gateOpen_eq_false_iff s).2 ⟨hm, .inl hg⟩) bs

theorem feed_cfg {b : Byte} {s t : State} (h : feed b s = .next t) : t.cfg = s.cfg :=
  (feed_frame (formatOf_decodeRx b) h).1

/-- Settles O55: with STOP the gate is closed in CLI mode, and the byte that performed the Return leaves CLI mode
behind. -/
theorem nothingIsFedInCliMode : Obligations.NothingIsFedInCliMode := by
  unfold Obligations.NothingIsFedInCliMode
  refine fun s hg => ⟨fun hm bs => ⟨?_, drainRest_stop_cli hg hm bs⟩, fun b t bs hfeed hkiss hcli => ?_⟩
  · cases bs with
    | nil => rfl
    | cons b rest => exact drainRest_stop_cli (s := beginRead s) hg hm _
  · have hstop : t.cfg.gateAfterReturn = .stop := (congrArg Config.gateAfterReturn (feed_cfg hfeed)).trans hg
    calc drain (b :: bs) s
        = andThen (offerByte b (beginRead s)) (drainRest bs) := rfl
      _ = andThen (.next t) (drainRest bs) := by
          rw [offerByte_open (gateOpen_of_kiss (s := beginRead s) hkiss)]; exact congrArg (andThen · _) hfeed
      _ = .next t := drainRest_stop_cli hstop hcli bs

/-! Runs of steps. -/

/-- `k` steps of the machine, stopping at the first fault or refusal. -/
abbrev runSteps (k : Nat) (s : State) : Result := Host.Core.run Sys2Proof.core k s

@[simp] theorem runSteps_zero (s : State) : runSteps 0 s = .next s := rfl

theorem runSteps_succ (k : Nat) (s : State) : runSteps (k + 1) s = andThen (step s) (runSteps k) := by
  refine (Host.Core.run.eq_2 core s k).trans ?_
  show _ = andThen (core.step s) _
  cases core.step s <;> rfl

theorem runSteps_add (j k : Nat) (s : State) : runSteps (j + k) s = andThen (runSteps j s) (runSteps k) := by
  induction j generalizing s with
  | zero => rw [Nat.zero_add]; rfl
  | succ j ih =>
    rw [Nat.succ_add, runSteps_succ, runSteps_succ, andThen_assoc]
    exact congrArg _ (funext ih)

/-- A run takes as many inputs as it has steps, keeps the configuration and meets the invariant again. -/
theorem runSteps_frame {k : Nat} {s t : State} (h : Inv s) (hr : runSteps k s = .next t) :
    Inv t ∧ t.inputs = s.inputs.drop k ∧ t.cfg = s.cfg := by
  induction k generalizing s with
  | zero =>
    cases hr
    exact ⟨h, rfl, rfl⟩
  | succ k ih =>
    rw [runSteps_succ] at hr
    obtain ⟨u, hu, hr⟩ := andThen_next.1 hr
    obtain ⟨hinputs, hcfg⟩ := step_inputs_cfg hu
    obtain ⟨ht, htinputs, htcfg⟩ := ih (step_inv h hu) hr
    exact ⟨ht, by rw [htinputs, hinputs, List.drop_tail], htcfg.trans hcfg⟩

/-- The bytes that remain of a transport read, as inputs. -/
def restOfRead (bs : List Byte) : List Input := bs.map fun b => .byte b false

/-- Behind a closed gate the rest of a read is only taken from the inputs. -/
theorem runSteps_closed {s : State} {bs : List Byte} {is : List Input} (hl : s.cfg.legal = true)
    (hg : gateOpen s = false) (hi : s.inputs = restOfRead bs ++ is) :
    runSteps bs.length s = .next { s with inputs := is } := by
  induction bs generalizing s with
  | nil => cases hi; rfl
  | cons b bs ih =>
    have htake : step s = .next (takeInput false (restOfRead bs ++ is) s) :=
      (step_byte hl hi).trans (offerByte_closed (by exact hg) b)
    rw [List.length_cons, runSteps_succ, htake, andThen_of_next]
    exact ih hl hg rfl

/-- In CLI mode the next transport read is only taken from the inputs, and ends the read before it. -/
theorem runSteps_nextRead {s : State} {bs : List Byte} (hl : s.cfg.legal = true) (hm : s.mode = .cli)
    (hi : s.inputs = readOf bs) :
    runSteps bs.length s = .next { s with inputs := [], returnInRead := bs.isEmpty && s.returnInRead } := by
  cases bs with
  | nil => cases s; cases hi; rfl
  | cons b bs =>
    have hclosed : gateOpen (takeInput true (restOfRead bs) s) = false := (gateOpen_eq_false_iff _).2 ⟨hm, .inr rfl⟩
    have htake : step s = .next (takeInput true (restOfRead bs) s) :=
      (step_byte hl hi).trans (offerByte_closed hclosed b)
    rw [List.length_cons, runSteps_succ, htake, andThen_of_next]
    exact runSteps_closed hl hclosed (List.append_nil _).symm

/-! The rest of a read after a Return, under CONTINUE. -/

/-- A Return was performed in the read in progress, and the gate stays open for the rest of it. -/
structure AfterReturn (s : State) : Prop where
  inv : Inv s
  continues : s.cfg.gateAfterReturn = .continueRead
  mode : s.mode = .cli
  marked : s.returnInRead = true

/-- A byte is fed as it is from the inputs, whatever stands behind it there. -/
theorem AfterReturn.feed {s : State} (h : AfterReturn s) (b : Byte) :
    ∃ t, feed b s = .next t ∧ AfterReturn t ∧
      ∀ is, step { s with inputs := .byte b false :: is } = .next { t with inputs := is } := by
  obtain ⟨t, ht, hinv⟩ := feedRow_inv (formatOf_decodeRx b) h.inv
  obtain ⟨ret, -, hmode, hmark, hrun⟩ := exec_setDrive ht
  rw [h.mode] at hmode
  rw [h.marked, Bool.or_true] at hmark
  have hcli : t.mode = .cli := hmode.trans ((modeAfter_cases ret .cli).elim id id)
  refine ⟨t, ht, ⟨hinv, feed_cfg ht ▸ h.continues, hcli, hmark⟩, fun is => ?_⟩
  have hopen : gateOpen { s with inputs := is } = true := gateOpen_of_continue h.continues h.marked
  calc step { s with inputs := .byte b false :: is }
      = offerByte b { s with inputs := is } :=
        step_byte (s := { s with inputs := .byte b false :: is }) h.inv.legal rfl
    _ = exec (decodeRx b) (setDrive is s.mode s.returnInRead s) := offerByte_open hopen b
    _ = .next (setDrive is t.mode t.returnInRead t) := by
        rw [hrun, h.mode, h.marked, Bool.or_true, hmode, hmark]

theorem AfterReturn.feedAll {s : State} (h : AfterReturn s) (bs : List Byte) :
    ∃ t, feedAll bs s = .next t ∧ AfterReturn t ∧
      ∀ is, runSteps bs.length { s with inputs := restOfRead bs ++ is } = .next { t with inputs := is } := by
  induction bs generalizing s with
  | nil => exact ⟨s, rfl, h, fun _ => rfl⟩
  | cons b bs ih =>
    obtain ⟨u, hu, hau, hstep⟩ := h.feed b
    obtain ⟨t, ht, hat, hrun⟩ := ih hau
    refine ⟨t, ?_, hat, fun is => ?_⟩
    · show andThen (Machine.feed b s) _ = _
      rw [hu, andThen_of_next, ht]
    · rw [List.length_cons, runSteps_succ]
      exact (congrArg (andThen · _) (hstep _)).trans (hrun is)

/-- The inputs left after the bytes `ps` of a read. -/
theorem drop_readOf {ps : List Byte} (hps : ps ≠ []) (qs : List Byte) (is : List Input) :
    (readOf (ps ++ qs) ++ is).drop ps.length = restOfRead qs ++ is := by
  cases ps with
  | nil => exact absurd rfl hps
  | cons p ps => simp [readOf, restOfRead]

/-- Settles O57: after `ps` the inputs are the rest of its read and the next read; the gate decides what happens to the
first, and is closed for the second. -/
theorem readBoundaryEndsTheReturnGate : Obligations.ReadBoundaryEndsTheReturnGate := by
  unfold Obligations.ReadBoundaryEndsTheReturnGate
  refine ⟨fun s t h => by rw [onInstance_next_eq h]; rfl, fun s v ps qs ys hinv hps hi hrun hm => ?_⟩
  obtain ⟨hv, hvi, hcfg⟩ := runSteps_frame hinv hrun
  rw [hi, drop_readOf hps] at hvi
  have hclosed : gateOpen v = false → runSteps (qs.length + ys.length) v =
      .next { v with inputs := [], returnInRead := ys.isEmpty && v.returnInRead } := fun hg => by
    rw [runSteps_add, runSteps_closed hv.legal hg hvi, andThen_of_next]
    exact runSteps_nextRead (s := { v with inputs := readOf ys }) hv.legal hm rfl
  refine ⟨fun hstop => hclosed ?_, fun hcont hmark => ?_, fun hcont hmark => ?_⟩
  · exact (gateOpen_eq_false_iff v).2 ⟨hm, .inl (hcfg ▸ hstop)⟩
  · obtain ⟨w, hw, haw, hread⟩ := AfterReturn.feedAll ⟨hv, hcfg ▸ hcont, hm, hmark⟩ qs
    refine ⟨w, hw, ?_⟩
    have hrest : runSteps qs.length v = .next { w with inputs := readOf ys } := by
      rw [← hread, ← hvi]
    show runSteps _ v = _
    rw [runSteps_add, hrest, andThen_of_next,
      runSteps_nextRead (s := { w with inputs := readOf ys }) haw.inv.legal haw.mode rfl]
    simp only [haw.marked, Bool.and_true]
    rfl
  · refine (hclosed ((gateOpen_eq_false_iff v).2 ⟨hm, .inr hmark⟩)).trans ?_
    rw [hmark, Bool.and_false, ← hmark]
    rfl

end Sys2Proof.Machine
end

section
/-! PROOFS. The buffer an encode request brings (20_memory.md R57): what the encoder writes is fixed by its operands and
`MY_PORT` (40_encoder.md R98), and it writes nowhere else. -/

namespace Sys2Proof.Machine

/-- Whatever its buffer holds, the encoder writes the same bytes and truncates alike: the length of the prefix it consumes
is fixed by the check of R101, which looks only at the payload and the capacity. -/
theorem runEncode_ignores_buffer {c c' : Config} {sel : Option Nibble} (hport : portOf c' sel = portOf c sel)
    (cmd : Nibble) (p : List Byte) (cap : Nat) (mem mem' : Memory) :
    ∃ bs, Wrote { mem := mem, olen := 0, cap := cap } (runEncode c cmd sel p cap mem).1 bs ∧
      Wrote { mem := mem', olen := 0, cap := cap } (runEncode c' cmd sel p cap mem').1 bs ∧
      (runEncode c' cmd sel p cap mem').2 = (runEncode c cmd sel p cap mem).2 := by
  by_cases hcap : cap < 3
  · exact ⟨[], by simp [runEncode, hcap, Wrote.refl]⟩
  · obtain ⟨k, hk, hw, htrunc, hin, hout⟩ := runEncode_spec c cmd sel p mem (Nat.not_lt.1 hcap)
    obtain ⟨k', hk', hw', htrunc', hin', hout'⟩ := runEncode_spec c' cmd sel p mem' (Nat.not_lt.1 hcap)
    have hkk : k' = k := by
      rcases Nat.lt_trichotomy k' k with hlt | heq | hgt
      · exact absurd (hin k' hlt) (Nat.not_le.2 (hout' (hlt.trans_le hk)))
      · exact heq
      · exact absurd (hin' k hgt) (Nat.not_le.2 (hout (hgt.trans_le hk')))
    subst hkk
    exact ⟨_, hw, hport ▸ hw', htrunc'.trans htrunc.symm⟩

theorem recordTrunc_setOut (trunc : Bool) (o : OutBuf) (s : State) :
    recordTrunc trunc (setOut o s) = setOut o (recordTrunc trunc s) := by
  cases trunc <;> rfl

/-- A served encode request: the response and, if the payload was truncated, its condition; nothing else. -/
theorem step_encode_response {s : State} {cmd : Nibble} {sel : Option Nibble} {p : List Byte} {cap : Nat}
    {ob : List Byte} {rest : List Input} (hl : s.cfg.legal = true)
    (hi : s.inputs = .encode cmd sel p cap ob :: rest) :
    step s = .next (setOut (runEncode s.cfg cmd sel p cap (Memory.ofBytes 0 (ob.take cap))).1
      (recordTrunc (runEncode s.cfg cmd sel p cap (Memory.ofBytes 0 (ob.take cap))).2 (takeInput false rest s))) := by
  rw [step_encode hl hi, ← recordTrunc_setOut]
  exact onInstance_legal (s := supplyBuffer ob cap (takeInput false rest s)) hl _

/-- Settles O60: the encoder writes below olen only, so above it the buffer is what was supplied, and what it writes does
not depend on the buffer. -/
theorem callerBufferIsKept : Obligations.CallerBufferIsKept := by
  unfold Obligations.CallerBufferIsKept
  intro s cmd sel p cap ob ob' rest hl hi
  obtain ⟨bs, hw, hw', htrunc⟩ := runEncode_ignores_buffer (c := s.cfg) (c' := s.cfg) (sel := sel) rfl cmd p cap
    (Memory.ofBytes 0 (ob.take cap)) (Memory.ofBytes 0 (ob'.take cap))
  have hle := runEncode_olen_le s.cfg cmd sel p cap (Memory.ofBytes 0 (ob.take cap))
  have hstep := step_encode_response hl hi
  have hstep' := step_encode_response (s := { s with inputs := .encode cmd sel p cap ob' :: rest }) hl rfl
  rw [htrunc] at hstep'
  generalize (runEncode s.cfg cmd sel p cap (Memory.ofBytes 0 (ob.take cap))).1 = o at *
  generalize (runEncode s.cfg cmd sel p cap (Memory.ofBytes 0 (ob'.take cap))).1 = o' at *
  have hread : ∀ a, o.olen ≤ a → Memory.read o.mem a = if a < cap then ob[a]? else none := fun a ha =>
    (hw.other a (.inr (hw.olen ▸ ha))).trans (supplyBuffer_read ob cap s a)
  have holen : o'.olen = o.olen := hw'.olen.trans hw.olen.symm
  have hcap : o'.cap = o.cap := hw'.cap.trans hw.cap.symm
  have hbytes : Memory.bytesBelow o'.mem o.olen = Memory.bytesBelow o.mem o.olen := by
    rw [hw.bytesFromZero, ← holen, hw'.bytesFromZero]
  refine ⟨_, _, hstep, hle, fun a hlow hhigh => (hread a hlow).trans (if_pos hhigh),
    fun a ha => (hread a (hle.trans ha)).trans (if_neg (Nat.not_lt.2 ha)), hstep', holen, hbytes, ?_⟩
  rw [setOut_out, setOut_out, ← holen, ← hcap]
  rfl

end Sys2Proof.Machine
end

section
/-! PROOFS. The byte formats (30_encoding.md): on well-formed rows each decoder and the encoder undo one another. A
header is spoken of by its two fields, as every header byte is one (`headerByte_fields`). -/

namespace Sys2Proof

/-! The header decoder, one equation per branch of 30_encoding.md R86. -/

theorem decodeHeader_return (myPort : Nibble) : decodeHeader myPort 0xFF#8 = .returnCli := if_pos (by decide)

theorem decodeHeader_global {myPort cmd : Nibble} (hport : myPort ≠ 15#4) (hcmd : cmd ≠ 15#4) :
    decodeHeader myPort (headerByte 15#4 cmd) = .globalOther cmd := by
  simp [decodeHeader, hcmd, Ne.symm hport]

theorem decodeHeader_foreign {myPort port : Nibble} (hne : port ≠ myPort) (hport : port ≠ 15#4) (cmd : Nibble) :
    decodeHeader myPort (headerByte port cmd) = .unaddressed port cmd := by
  simp [decodeHeader, hne, hport]

theorem decodeHeader_own {port : Nibble} (hport : port ≠ 15#4) (cmd : Nibble) :
    decodeHeader port (headerByte port cmd) = ownCommand port cmd := by
  simp [decodeHeader, hport]

/-- Settles O43: a default row is well formed outside the values of the rows above it, so its byte falls through to it;
an own-port row names its command code. -/
theorem decodeEncodeAgree : Obligations.DecodeEncodeAgree := by
  unfold Obligations.DecodeEncodeAgree
  intro myPort i rest hport hwf hreq
  have header {b : Byte} (h : decodeHeader myPort b = i) : decode .header8 myPort (b :: rest) = .ok i rest :=
    congrArg (Decoded.ok · rest) h
  cases i with
  | encodeReq => exact absurd rfl hreq
  | feedEsc | feedDelim | feedTesc | feedTdelim | encStuffDelim | encStuffEsc | getRadioStats | signalReporting => rfl
  | feedOther b =>
    obtain ⟨hdelim, hesc, htdelim, htesc⟩ : b ≠ 0xC0#8 ∧ b ≠ 0xDB#8 ∧ b ≠ 0xDC#8 ∧ b ≠ 0xDD#8 := by
      simpa [wellFormed, and_assoc] using hwf
    exact congrArg (Decoded.ok · rest) (decodeRx_other hdelim hesc htdelim htesc)
  | encLiteral b =>
    have hb : b ≠ 0xC0#8 ∧ b ≠ 0xDB#8 := by simpa [wellFormed] using hwf
    simp [formatOf, encode, decode, decodePayload, hb]
  | vendorUnknown sub =>
    have hsub : sub ≠ 0x01#8 ∧ sub ≠ 0x80#8 := by simpa [wellFormed] using hwf
    simp [formatOf, encode, decode, decodeVendor, hsub]
  | returnCli => exact header (decodeHeader_return myPort)
  | globalOther cmd => exact header (decodeHeader_global hport (of_decide_eq_true hwf))
  | unaddressed port cmd =>
    have hp : port ≠ myPort ∧ port ≠ 15#4 := by simpa [wellFormed] using hwf
    exact header (decodeHeader_foreign hp.1 hp.2 cmd)
  | data port | txDelay port | persist port | slotTime port | txTail port | fullDuplex port | vendor port
  | cmdUndef7 port | cmdUndef8 port | cmdUndef9 port | cmdUndef10 port | cmdUndef11 port | cmdUndef12 port
  | cmdUndef13 port | cmdUndef14 port | cmdReturnLocal port =>
    obtain rfl : port = myPort := of_decide_eq_true hwf
    exact header (decodeHeader_own hport _)

/-- Settles O2: the fields of a header that is not 0xFF decide which equation of the header decoder applies. -/
theorem decodersFollowThePrecedence : Obligations.DecodersFollowThePrecedence := by
  unfold Obligations.DecodersFollowThePrecedence
  refine ⟨fun _ => rfl, fun _ => rfl, fun _ => rfl, decodeHeader_return, fun myPort h hport hff => ?_⟩
  obtain ⟨port, cmd, rfl⟩ : ∃ port cmd, h = headerByte port cmd := ⟨_, _, (headerByte_fields h).symm⟩
  rw [headerPort_headerByte, headerCmd_headerByte]
  refine ⟨fun _ hglobal => ?_, fun hne hglobal => decodeHeader_foreign hne hglobal cmd, fun hown => ?_⟩
  · subst hglobal
    exact decodeHeader_global hport fun hcmd => hff (headerByte_ff.2 ⟨rfl, hcmd⟩)
  · subst hown
    have own (c : Nibble) (hc : cmd = c) : decodeHeader port (headerByte port cmd) = ownCommand port c :=
      hc ▸ decodeHeader_own hport cmd
    exact ⟨own 0, own 1, own 2, own 3, own 4, own 5, own 6, own 7, own 8, own 9, own 10, own 11, own 12, own 13,
      own 14, own 15⟩

/-! The rows that a byte can stand for. -/

/-- The operation `i` is a well-formed row of the format `f`, and `b` is its byte. -/
structure IsRow (f : Format) (myPort : Nibble) (b : Byte) (i : Instr) : Prop where
  format : formatOf i = f
  wf : wellFormed myPort i = true
  bytes : encode i = [b]

theorem decodeRx_isRow (myPort : Nibble) (b : Byte) : IsRow .rxByte myPort b (decodeRx b) := by
  rcases decodeRx_cases b with ⟨rfl, e⟩ | ⟨rfl, e⟩ | ⟨rfl, e⟩ | ⟨rfl, e⟩ | ⟨hdelim, hesc, htdelim, htesc, e⟩ <;> rw [e]
  case inr.inr.inr.inr => exact ⟨rfl, by simp [wellFormed, hdelim, hesc, htdelim, htesc], rfl⟩
  all_goals exact ⟨rfl, rfl, rfl⟩

theorem decodePayload_isRow (myPort : Nibble) (b : Byte) : IsRow .encPayloadByte myPort b (decodePayload b) := by
  unfold decodePayload
  split
  case isTrue h => subst h; exact ⟨rfl, rfl, rfl⟩
  case isFalse hdelim =>
    split
    case isTrue h => subst h; exact ⟨rfl, rfl, rfl⟩
    case isFalse hesc => exact ⟨rfl, by simp [wellFormed, hdelim, hesc], rfl⟩

theorem decodeVendor_isRow (myPort : Nibble) (b : Byte) : IsRow .vendorSubcmd8 myPort b (decodeVendor b) := by
  unfold decodeVendor
  split
  case isTrue h => subst h; exact ⟨rfl, rfl, rfl⟩
  case isFalse hstats =>
    split
    case isTrue h => subst h; exact ⟨rfl, rfl, rfl⟩
    case isFalse hsignal => exact ⟨rfl, by simp [wellFormed, hstats, hsignal], rfl⟩

/-- Every command code of the own port has its row (30_encoding.md R81). -/
theorem ownCommand_isRow (port cmd : Nibble) : IsRow .header8 port (headerByte port cmd) (ownCommand port cmd) := by
  rcases nibble_cases cmd with
    rfl | rfl | rfl | rfl | rfl | rfl | rfl | rfl | rfl | rfl | rfl | rfl | rfl | rfl | rfl | rfl
  all_goals exact ⟨rfl, decide_eq_true rfl, rfl⟩

theorem decodeHeader_isRow {myPort : Nibble} (hport : myPort ≠ 15#4) (b : Byte) :
    IsRow .header8 myPort b (decodeHeader myPort b) := by
  obtain ⟨port, cmd, rfl⟩ : ∃ port cmd, b = headerByte port cmd := ⟨_, _, (headerByte_fields b).symm⟩
  by_cases hown : port = myPort
  · subst hown
    rw [decodeHeader_own hport]
    exact ownCommand_isRow port cmd
  by_cases hglobal : port = 15#4
  · subst hglobal
    by_cases hcmd : cmd = 15#4
    · rw [headerByte_ff.2 ⟨rfl, hcmd⟩, decodeHeader_return]
      exact ⟨rfl, rfl, rfl⟩
    · rw [decodeHeader_global hport hcmd]
      exact ⟨rfl, decide_eq_true hcmd, rfl⟩
  · rw [decodeHeader_foreign hown hglobal]
    exact ⟨rfl, by simp [wellFormed, hown, hglobal], rfl⟩

/-- Settles O44: each decoder answers a row of its own format whose byte it was given. -/
theorem encodeDecodeAgree : Obligations.EncodeDecodeAgree := by
  unfold Obligations.EncodeDecodeAgree
  intro f myPort b rest hreq hport
  obtain ⟨i, hdecode, hrow⟩ : ∃ i, decode f myPort (b :: rest) = .ok i rest ∧ IsRow f myPort b i := by
    cases f with
    | rxByte => exact ⟨_, rfl, decodeRx_isRow myPort b⟩
    | encRequest => exact absurd rfl hreq
    | encPayloadByte => exact ⟨_, rfl, decodePayload_isRow myPort b⟩
    | header8 => exact ⟨_, rfl, decodeHeader_isRow hport b⟩
    | vendorSubcmd8 => exact ⟨_, rfl, decodeVendor_isRow myPort b⟩
  exact ⟨i, hdecode, hrow.format, hrow.wf, hrow.bytes⟩

/-- Settles O1, by running each decoder on its words. -/
theorem tableWordsDecode : Obligations.TableWordsDecode := by
  unfold Obligations.TableWordsDecode
  decide

end Sys2Proof
end

section
/-! PROOFS. The length of a routed buffer (30_encoding.md R95; 41_deframer.md R128): a delimiter dispatches the frame in
progress when it is not empty, a forced dispatch that frame and one byte more. -/

namespace Sys2Proof.Machine

@[simp] theorem recordEscAtDelim_len (s : State) : (recordEscAtDelim s).len = s.len := by
  unfold recordEscAtDelim
  split <;> rfl

/-- A dispatch routes the `len` bytes of the command buffer, once. -/
theorem Dispatched.routed {u t : State} (hd : Dispatched u t) :
    ∃ cb, t.routed = u.routed ++ [cb] ∧ cb.length = u.len := by
  obtain ⟨cb, hcb, rfl⟩ := hd
  exact ⟨cb, by simp, commandBuffer_length hcb⟩

/-- A FEED operation routes nothing, or one buffer: the frame in progress, not empty, or one byte more than it. -/
theorem feed_routed {i : Instr} {s t : State} (hf : formatOf i = .rxByte) (h : exec i s = .next t) :
    t.routed = s.routed ∨
    ∃ cb, t.routed = s.routed ++ [cb] ∧ 1 ≤ cb.length ∧ (cb.length = s.len ∨ cb.length = s.len + 1) := by
  obtain ⟨-, ⟨_, _, _, -, -, rfl⟩ | ⟨v, rfl⟩ | ⟨-, hpos, hd⟩ | ⟨v, hd⟩⟩ := feed_cases hf h
  · exact .inl rfl
  · exact .inl rfl
  · obtain ⟨cb, hcb, hlen⟩ := hd.routed
    rw [setEsc_routed, (recordEscAtDelim_sameOutput s).routed] at hcb
    rw [setEsc_len, recordEscAtDelim_len] at hlen
    exact .inr ⟨cb, hcb, hlen ▸ hpos, .inl hlen⟩
  · obtain ⟨cb, hcb, hlen⟩ := hd.routed
    have hlen' : cb.length = s.len + 1 := hlen
    exact .inr ⟨cb, hcb, by omega, .inr hlen'⟩

/-- A step routes nothing, or one buffer, as its FEED operation does. -/
theorem step_routed {s t : State} (h : step s = .next t) :
    t.routed = s.routed ∨
    ∃ cb, t.routed = s.routed ++ [cb] ∧ 1 ≤ cb.length ∧ (cb.length = s.len ∨ cb.length = s.len + 1) := by
  obtain ⟨-, ⟨-, rfl⟩ | ⟨b, _, _, -, ⟨-, he⟩ | ⟨-, rfl⟩⟩ | ⟨_, _, _, _, _, _, -, he⟩ | ⟨_, _, -, rfl⟩⟩ := step_cases h
  case inr.inl.inl => exact feed_routed (s := takeInput _ _ s) (formatOf_decodeRx b) he
  case inr.inr.inl =>
    obtain ⟨-, _, _, -, -, rfl⟩ := encodeReq_next he
    exact .inl rfl
  all_goals exact .inl rfl

/-- Settles O53: between steps `len` is at most N - 2 (10_state.md R52). -/
theorem routedBuffersAreBounded : Obligations.RoutedBuffersAreBounded := by
  unfold Obligations.RoutedBuffersAreBounded
  intro s t hinv h
  have hbound := hinv.lenBound
  refine (step_routed h).imp_right fun ⟨cb, hcb, hpos, hlen⟩ => ⟨cb, hcb, hpos, ?_⟩
  omega

end Sys2Proof.Machine
end

section
/-! PROOFS. The Frame Encoder as operations of the state (40_encoder.md): a payload row is one write behind the check of
R101, and an encode request is `runEncode` with its condition. What the encoder writes is said by `runEncode_spec`. -/

namespace Sys2Proof.Machine

/-! The payload rows. -/

/-- The write of a payload row (R103 to R105). -/
def payloadRowWrite : Instr → OutBuf → OutBuf
  | .encStuffDelim => stuffDelim
  | .encStuffEsc => stuffEsc
  | .encLiteral b => putLiteral b
  | _ => id

theorem exec_payloadRow {i : Instr} (hf : formatOf i = .encPayloadByte) (s : State) :
    exec i s = onInstance s (.next (consumePayload s (payloadRowWrite i))) := by
  cases i with
  | encStuffDelim | encStuffEsc | encLiteral b => rfl
  | _ => simp [formatOf] at hf

theorem hasRoom_iff (o : OutBuf) : hasRoom o = true ↔ 2 ≤ o.cap - o.olen - 1 := decide_eq_true_iff

theorem exec_payloadRow_of_room {i : Instr} {s : State} (hf : formatOf i = .encPayloadByte) (hl : s.cfg.legal = true)
    (hroom : 2 ≤ s.out.cap - s.out.olen - 1) : exec i s = .next (setOut (payloadRowWrite i s.out) s) := by
  rw [exec_payloadRow hf, onInstance_legal hl, consumePayload, if_pos ((hasRoom_iff _).2 hroom)]

theorem exec_payloadRow_of_no_room {i : Instr} {s : State} (hf : formatOf i = .encPayloadByte)
    (hl : s.cfg.legal = true) (hroom : s.out.cap - s.out.olen - 1 < 2) : exec i s = .next (record .encTrunc s) := by
  rw [exec_payloadRow hf, onInstance_legal hl, consumePayload, if_neg (mt (hasRoom_iff _).1 (Nat.not_le.2 hroom))]

/-- The row that a payload byte decodes to makes the choice of the payload loop. -/
theorem payloadRowWrite_decodePayload (b : Byte) : payloadRowWrite (decodePayload b) = putPayloadByte b := by
  funext o
  unfold decodePayload putPayloadByte
  split
  · rfl
  · split <;> rfl

/-- A payload row writes at its position at most two bytes, ENC_LITERAL at most one, and nothing else. -/
theorem payloadRow_wrote {i : Instr} {s t : State} (hf : formatOf i = .encPayloadByte) (h : exec i s = .next t) :
    ∃ bs, Wrote s.out t.out bs ∧ bs.length ≤ 2 ∧ ∀ b, i = .encLiteral b → bs.length ≤ 1 := by
  rw [exec_payloadRow hf] at h
  have ht := onInstance_next_eq h
  rcases consumePayload_cases s (payloadRowWrite i) with ⟨-, e⟩ | ⟨-, e⟩ <;> rw [ht, e]
  · cases i with
    | encStuffDelim | encStuffEsc => exact ⟨_, (wrote_putByte _ _).trans (wrote_putByte _ _), by simp, nofun⟩
    | encLiteral b => exact ⟨_, wrote_putByte b _, by simp, by simp⟩
    | _ => simp [formatOf] at hf
  · exact ⟨[], Wrote.refl _, by simp, by simp⟩

/-- Settles O22: with room, a row is its write. -/
theorem payloadRowsWrite : Obligations.PayloadRowsWrite := fun _ _ hl hroom =>
  ⟨exec_payloadRow_of_room rfl hl hroom, exec_payloadRow_of_room rfl hl hroom, exec_payloadRow_of_room rfl hl hroom⟩

/-- Settles O23: without room, a row is its condition. -/
theorem payloadRowsWithoutRoom : Obligations.PayloadRowsWithoutRoom :=
  fun _ _ hl hf hroom => exec_payloadRow_of_no_room hf hl hroom

/-- Settles O24: the decoded row has room where the loop goes on, and makes the same write. -/
theorem payloadLoopRunsDecodedRow : Obligations.PayloadLoopRunsDecodedRow := by
  unfold Obligations.PayloadLoopRunsDecodedRow
  intro s b rest hl hroom
  have hf : formatOf (decodePayload b) = .encPayloadByte := (decodePayload_isRow s.cfg.myPort b).format
  refine ⟨_, exec_payloadRow_of_room hf hl hroom, rfl, ?_⟩
  rw [payloadRowWrite_decodePayload, putPayload, if_pos ((hasRoom_iff _).2 hroom)]
  rfl

/-! Encode requests. -/

theorem exec_encodeReq {s : State} (hl : s.cfg.legal = true) (cmd : Nibble) (sel : Option Nibble) (p : List Byte)
    (cap : Nat) :
    exec (.encodeReq cmd sel p cap) s = .next { s with
      out := (runEncode s.cfg cmd sel p cap s.out.mem).1,
      conds := s.conds ++ if (runEncode s.cfg cmd sel p cap s.out.mem).2 then [.encTrunc] else [] } := by
  refine (onInstance_legal hl _).trans ?_
  generalize runEncode s.cfg cmd sel p cap s.out.mem = r
  cases r.2 <;> simp [recordTrunc, setOut, record]

theorem runEncode_short {cap : Nat} (hcap : cap < 3) (c : Config) (cmd : Nibble) (sel : Option Nibble) (p : List Byte)
    (mem : Memory) : runEncode c cmd sel p cap mem = ({ mem := mem, olen := 0, cap := cap }, false) := by
  simp [runEncode, hcap]

/-- A capacity that two bytes per payload byte fit in truncates nothing (R109). -/
theorem runEncode_whole {p : List Byte} {cap : Nat} (hcap : 2 * p.length + 3 ≤ cap) (c : Config) (cmd : Nibble)
    (sel : Option Nibble) (mem : Memory) :
    Wrote { mem := mem, olen := 0, cap := cap } (runEncode c cmd sel p cap mem).1 (frame (portOf c sel) cmd p) ∧
      (runEncode c cmd sel p cap mem).2 = false := by
  obtain ⟨k, hk, hw, htrunc, -, hout⟩ := runEncode_spec c cmd sel p mem (cap := cap) (by omega)
  have hall : k = p.length := by
    by_contra hne
    have hlt : k < p.length := by omega
    have hesc := escapedCount_le (p.take k)
    have hfull := hout hlt
    rw [List.length_take] at hesc
    omega
  subst hall
  exact ⟨by simpa using hw, by simpa using htrunc⟩

/-- Settles O18: below a capacity of 3 nothing is written. -/
theorem encodeShortCapacity : Obligations.EncodeShortCapacity := by
  unfold Obligations.EncodeShortCapacity
  intro s cmd sel p cap hl hcap
  rw [exec_encodeReq hl, runEncode_short hcap]
  simp

/-- Settles O19: `runEncode` wrote the frame of the first `k` payload bytes from the start of the buffer on. -/
theorem encodeResult : Obligations.EncodeResult := by
  unfold Obligations.EncodeResult
  intro s cmd sel p cap hl
  refine ⟨encodeShortCapacity s cmd sel p cap hl, fun hcap => ?_⟩
  obtain ⟨k, hk, hw, htrunc, hin, hout⟩ := runEncode_spec s.cfg cmd sel p s.out.mem hcap
  have holen : (runEncode s.cfg cmd sel p cap s.out.mem).1.olen = 3 + k + escapedCount (p.take k) := by
    rw [hw.olen, frame_length, List.length_take, Nat.min_eq_left hk, Nat.zero_add]
  refine ⟨k, _, exec_encodeReq hl cmd sel p cap, hk, hw.bytesFromZero, holen, ?_, runEncode_olen_le .., hw.cap, hin,
    hout, fun a ha => hw.other a (.inr (hw.olen ▸ ha)), ?_⟩
  · simp only [holen]; omega
  · simp only [htrunc, decide_eq_true_eq]

/-- Settles O20: the payload is not truncated. -/
theorem encodeWholePayload : Obligations.EncodeWholePayload := by
  unfold Obligations.EncodeWholePayload
  intro s cmd sel p cap hl hcap
  obtain ⟨hw, htrunc⟩ := runEncode_whole hcap s.cfg cmd sel s.out.mem
  refine ⟨_, exec_encodeReq hl cmd sel p cap, by simp [htrunc], ?_, hw.bytesFromZero⟩
  rw [hw.olen, frame_length, Nat.zero_add]

/-- Settles O21: the encoder writes the same bytes whatever its buffer holds, and of the configuration it reads the port
alone. -/
theorem encodeReadsOnlyItsOperands : Obligations.EncodeReadsOnlyItsOperands := by
  unfold Obligations.EncodeReadsOnlyItsOperands
  intro s s' cmd sel p cap hl hl' hport
  obtain ⟨bs, hw, hw', -⟩ := runEncode_ignores_buffer (congrArg sel.getD hport.symm) cmd p cap s.out.mem s'.out.mem
  exact ⟨_, _, exec_encodeReq hl cmd sel p cap, exec_encodeReq hl' cmd sel p cap, hw.olen.trans hw'.olen.symm,
    hw.bytesFromZero.trans hw'.bytesFromZero.symm, fun a ha => hw.other a (.inr (hw.olen ▸ ha)), rfl⟩

/-- Settles O39: an encoder row writes the output buffer from its position on, and the condition trace. -/
theorem encoderFrame : Obligations.EncoderFrame := by
  unfold Obligations.EncoderFrame
  intro i s t hf h
  refine ⟨encoderRow_frame hf h, fun hreq a ha => ?_, fun hrow => ?_, fun b hi a ha => ?_⟩
  · cases i with
    | encodeReq cmd sel p cap =>
      obtain ⟨-, _, _, -, rfl, rfl⟩ := encodeReq_next h
      obtain ⟨bs, hw⟩ := runEncode_wrote s.cfg cmd sel p cap s.out.mem
      exact hw.other a (.inr (hw.olen ▸ ha))
    | _ => simp [formatOf] at hreq
  · obtain ⟨bs, hw, hlen, -⟩ := payloadRow_wrote hrow h
    exact ⟨hw.cap, fun a h0 h1 => hw.other a (by omega)⟩
  · obtain ⟨bs, hw, -, hlit⟩ := payloadRow_wrote (hi ▸ rfl) h
    have hlen := hlit b hi
    exact hw.other a (by omega)

end Sys2Proof.Machine
end

section
/-! PROOFS. The de-framer on a stuffed frame (41_deframer.md; 40_encoder.md R110): the stuffed form of a byte appends
the byte, so a frame of at most N - 2 bytes is held when its closing delimiter comes, and one of N - 1 bytes has by then
been routed by the forced dispatch of R121. -/

namespace Sys2Proof.Machine

/-- A dispatch routes the command buffer. -/
theorem Dispatched.routed_held {u t : State} {cb : List Byte} (hd : Dispatched u t) (hcb : commandBuffer u = some cb) :
    t.routed = u.routed ++ [cb] := by
  obtain ⟨cb', hcb', rfl⟩ := hd
  cases hcb.symm.trans hcb'
  simp

theorem stuff_append (p q : List Byte) : stuff (p ++ q) = stuff p ++ stuff q := List.flatMap_append

theorem stuff_singleton (b : Byte) : stuff [b] = stuffByte b := List.flatMap_singleton ..

theorem stuffByte_literal {b : Byte} (hdelim : b ≠ 0xC0#8) (hesc : b ≠ 0xDB#8) : stuffByte b = [b] := by
  simp [stuffByte, hdelim, hesc]

/-! The delimiter, with no escape pending. -/

theorem feed_delim {s : State} (hl : s.cfg.legal = true) : feed 0xC0#8 s = feedDelimEffect s := onInstance_legal hl _

theorem feed_delim_empty {s : State} (hl : s.cfg.legal = true) (he : s.esc = false) (hlen : s.len = 0) :
    feed 0xC0#8 s = .next s := by
  simp [feed_delim hl, feedDelimEffect, hlen, setEsc_self he]

/-- The opening delimiter of a frame. -/
theorem feedAll_delim_empty {s : State} (hl : s.cfg.legal = true) (he : s.esc = false) (hlen : s.len = 0)
    (bs : List Byte) : feedAll (0xC0#8 :: bs) s = feedAll bs s := by
  rw [feedAll, feed_delim_empty hl he hlen, andThen_of_next]

theorem feed_delim_held {s : State} {cb : List Byte} (hl : s.cfg.legal = true) (he : s.esc = false)
    (hlen : 0 < s.len) (hcb : commandBuffer s = some cb) : ∃ t, feed 0xC0#8 s = .next t ∧ Dispatched s t := by
  have hrecord : recordEscAtDelim s = s := by simp [recordEscAtDelim, he]
  rw [feed_delim hl, feedDelimEffect, if_pos hlen, hrecord, setEsc_self he]
  exact ⟨_, dispatch_of_held hcb, cb, hcb, rfl⟩

/-! A stuffed frame. -/

/-- Below the capacity limit the bytes of a stuffed frame extend the command buffer, and nothing else changes. -/
theorem feedAll_stuff {s : State} {cb w : List Byte} (hl : s.cfg.legal = true) (he : s.esc = false)
    (hcb : commandBuffer s = some cb) (hroom : s.len + w.length + 2 ≤ s.cfg.n) :
    ∃ m, feedAll (stuff w) s = .next { s with cb := m, len := s.len + w.length } ∧
      commandBuffer { s with cb := m, len := s.len + w.length } = some (cb ++ w) := by
  induction w generalizing s cb with
  | nil => exact ⟨s.cb, rfl, by simpa using hcb⟩
  | cons b w ih =>
    rw [List.length_cons] at hroom
    have hstore : feedAll (stuff (b :: w)) s = feedAll (stuff w) (storeCb b s) := by
      rw [stuff_cons, feedAll_append, feedAll_stuffByte b hl he, append_below b (by omega), andThen_of_next]
    have hlen : s.len + (b :: w).length = (storeCb b s).len + w.length := by
      rw [storeCb_len, List.length_cons]; omega
    obtain ⟨m, hm, hheld⟩ := ih (s := storeCb b s) hl he (commandBuffer_storeCb b hcb)
      (by rw [storeCb_len, storeCb_cfg]; omega)
    rw [hlen, hstore]
    exact ⟨m, hm, by simpa using hheld⟩

/-- The stuffed bytes of a frame that brings the buffer to N - 1 bytes end in its forced dispatch (R121). -/
theorem feedAll_stuff_full {s : State} {cb w : List Byte} (hl : s.cfg.legal = true) (he : s.esc = false)
    (hcb : commandBuffer s = some cb) (hw : w ≠ []) (hfull : s.len + w.length + 1 = s.cfg.n) :
    ∃ t, feedAll (stuff w) s = .next t ∧ t.cfg = s.cfg ∧ t.routed = s.routed ++ [cb ++ w] ∧ t.len = 0 ∧
      t.esc = false := by
  obtain ⟨w', v, rfl⟩ : ∃ w' v, w = w' ++ [v] := ⟨_, _, (List.dropLast_append_getLast hw).symm⟩
  rw [List.length_append, List.length_singleton] at hfull
  obtain ⟨m, hm, hheld⟩ := feedAll_stuff (w := w') hl he hcb (by omega)
  have hlast := (feedAll_stuffByte (s := { s with cb := m, len := s.len + w'.length }) v hl he).trans
    (append_forced v (by simp only; omega) hheld)
  rw [stuff_append, stuff_singleton, feedAll_append, hm, andThen_of_next, hlast]
  exact ⟨_, rfl, by simp, by simp, rfl, rfl⟩

/-- A stuffed frame of at most N - 1 bytes is routed once: by its closing delimiter, or by the forced dispatch of its
last byte, after which the delimiter does nothing. -/
theorem feedAll_stuff_delim {s : State} {w : List Byte} (hl : s.cfg.legal = true) (he : s.esc = false)
    (hlen : s.len = 0) (hw : w ≠ []) (hfit : w.length + 1 ≤ s.cfg.n) :
    ∃ u t, feedAll (stuff w) s = .next u ∧ feed 0xC0#8 u = .next t ∧
      (w.length + 2 ≤ s.cfg.n → u.routed = s.routed) ∧ (w.length + 1 = s.cfg.n → u.routed = s.routed ++ [w]) ∧
      t.routed = s.routed ++ [w] ∧ t.len = 0 ∧ t.esc = false := by
  have hcb : commandBuffer s = some [] := by rw [commandBuffer, hlen]; rfl
  rcases Nat.lt_or_eq_of_le hfit with hbelow | hfull
  · obtain ⟨m, hm, hheld⟩ := feedAll_stuff (w := w) hl he hcb (by omega)
    have hpos : 0 < s.len + w.length := Nat.add_pos_right _ (List.length_pos_iff.2 hw)
    obtain ⟨t, ht, hd⟩ := feed_delim_held (s := { s with cb := m, len := s.len + w.length }) hl he hpos hheld
    obtain ⟨-, -, -, -, htlen, htesc⟩ := hd.frame
    exact ⟨_, t, hm, ht, fun _ => rfl, fun _ => by omega, hd.routed_held hheld, htlen, htesc⟩
  · obtain ⟨t, ht, hcfg, hrouted, htlen, htesc⟩ := feedAll_stuff_full hl he hcb hw (by omega)
    have hdelim := feed_delim_empty (hcfg ▸ hl) htesc htlen
    exact ⟨t, t, ht, hdelim, fun _ => by omega, fun _ => hrouted, hrouted, htlen, htesc⟩

/-- Settles O47: behind its opening delimiter, a frame is the stuffed form of the header and the payload. -/
theorem encodedFrameRoundTrips : Obligations.EncodedFrameRoundTrips := by
  unfold Obligations.EncodedFrameRoundTrips
  intro s port cmd p cap hinv hlen hesc hdelim hescape hcap hfit
  obtain ⟨e, he, -, -, hbytes⟩ := encodeWholePayload s cmd (some port) p cap hinv.legal hcap
  obtain ⟨hcfg, hrouted, helen, heesc⟩ : e.cfg = s.cfg ∧ e.routed = s.routed ∧ e.len = 0 ∧ e.esc = false := by
    obtain ⟨-, _, _, -, -, rfl⟩ := encodeReq_next he
    exact ⟨rfl, rfl, hlen, hesc⟩
  have hl : e.cfg.legal = true := hcfg ▸ hinv.legal
  rw [← hcfg] at hfit ⊢
  rw [← hrouted]
  have hframe : frame port cmd p = 0xC0#8 :: stuff (headerByte port cmd :: p) ++ [0xC0#8] := by
    rw [stuff_cons, stuffByte_literal hdelim hescape]; rfl
  obtain ⟨u, t, hu, ht, hrouting⟩ :=
    feedAll_stuff_delim (w := headerByte port cmd :: p) hl heesc helen (List.cons_ne_nil _ _) hfit
  exact ⟨e, u, t, _, he, hbytes.trans (congrArg some hframe), (feedAll_delim_empty hl heesc helen _).trans hu, ht,
    hrouting⟩

end Sys2Proof.Machine
end

section
/-! PROOFS. The five received-byte rows (41_deframer.md R113 to R121): each is a change of the flag, an append, or a
dispatch, and a dispatch is the row that the header byte decodes to. -/

namespace Sys2Proof.Machine

/-! DISPATCH and APPEND. -/

/-- DISPATCH of a non-empty buffer is the row of its first byte, and then the reset of R120. -/
theorem dispatch_runs_header {s : State} {cb : List Byte} (hl : s.cfg.legal = true) (hcb : commandBuffer s = some cb)
    (hne : cb ≠ []) :
    ∃ h data u, cb = h :: data ∧ exec (decodeHeader s.cfg.myPort h) (logRouted cb s) = .next u ∧
      dispatch s = .next (setEsc false (setLen 0 u)) := by
  obtain ⟨h, data, rfl⟩ := List.exists_cons_of_ne_nil hne
  exact ⟨h, data, _, rfl, exec_decodeHeader (s := logRouted (h :: data) s) hl hcb, dispatch_of_held hcb⟩

/-- Settles O36: a routed buffer is in the trace before its row runs. -/
theorem dispatchRunsDecodedHeader : Obligations.DispatchRunsDecodedHeader := by
  unfold Obligations.DispatchRunsDecodedHeader
  intro s h data hl hcb
  exact ⟨_, exec_decodeHeader (s := logRouted (h :: data) s) hl hcb, dispatch_of_held hcb⟩

/-- The forced dispatch of R121 runs the row of the first byte on the buffer with the appended byte. -/
theorem append_forced_runs_header {s : State} {cb : List Byte} (v : Byte) (hl : s.cfg.legal = true)
    (hfull : s.len + 2 = s.cfg.n) (hcb : commandBuffer s = some cb) :
    ∃ h data u, cb ++ [v] = h :: data ∧
      exec (decodeHeader s.cfg.myPort h) (logRouted (cb ++ [v]) (record .overflowTrunc (storeCb v s))) = .next u ∧
      append v s = .next (setEsc false (setLen 0 u)) := by
  have hheld : commandBuffer (record .overflowTrunc (storeCb v s)) = some (cb ++ [v]) := commandBuffer_storeCb v hcb
  have hdispatch : append v s = dispatch (record .overflowTrunc (storeCb v s)) :=
    (append_forced v hfull hcb).trans (dispatch_of_held hheld).symm
  rw [hdispatch]
  exact dispatch_runs_header (s := record .overflowTrunc (storeCb v s)) hl hheld (by simp)

/-- Settles O16: below the capacity limit an append is its store. -/
theorem appendedByteIsRead : Obligations.AppendedByteIsRead := by
  unfold Obligations.AppendedByteIsRead
  intro s v cb hroom hcb
  exact ⟨storeCb v s, append_below v hroom, rfl, commandBuffer_storeCb v hcb, read_write_same s.cb s.len v,
    fun a ha => read_write_other s.cb v ha⟩

/-- Settles O17: `route` keeps the trace of routed buffers, and adds its own conditions after OVERFLOW_TRUNC. -/
theorem forcedDispatchHasNMinusOneBytes : Obligations.ForcedDispatchHasNMinusOneBytes := by
  unfold Obligations.ForcedDispatchHasNMinusOneBytes
  intro s v cb _ hfull hcb
  have hlen := commandBuffer_length hcb
  obtain ⟨ks, hks, -⟩ := route_conds (cb ++ [v]) (logRouted (cb ++ [v]) (record .overflowTrunc (storeCb v s)))
  refine ⟨_, append_forced v hfull hcb, by simp, ?_, ?_, rfl, rfl⟩
  · rw [List.length_append, List.length_singleton]; omega
  · rw [setEsc_conds, setLen_conds, hks]
    exact List.take_left' List.length_append

/-! The rows. -/

/-- Settles O11: with a legal configuration the row is its effect. -/
theorem feedEscResult : Obligations.FeedEscResult := by
  unfold Obligations.FeedEscResult
  intro s hl
  exact onInstance_legal hl _

theorem exec_feedTesc {s : State} (hl : s.cfg.legal = true) :
    exec .feedTesc s = append (if s.esc then 0xDB#8 else 0xDD#8) (setEsc false s) :=
  (onInstance_legal hl _).trans (feedTransposed_eq ..)

theorem exec_feedTdelim {s : State} (hl : s.cfg.legal = true) :
    exec .feedTdelim s = append (if s.esc then 0xC0#8 else 0xDC#8) (setEsc false s) :=
  (onInstance_legal hl _).trans (feedTransposed_eq ..)

theorem exec_feedOther_escaped {s : State} (hl : s.cfg.legal = true) (he : s.esc = true) (b : Byte) :
    exec (.feedOther b) s = .next (record .unknownEsc (setEsc false s)) :=
  (onInstance_legal hl _).trans (if_pos he)

theorem exec_feedOther_literal {s : State} (hl : s.cfg.legal = true) (he : s.esc = false) (b : Byte) :
    exec (.feedOther b) s = append b s :=
  (onInstance_legal hl _).trans (if_neg (by simp [he]))

theorem exec_feedDelim_empty {s : State} (hl : s.cfg.legal = true) (hlen : s.len = 0) :
    exec .feedDelim s = .next (if s.cfg.emptyDelimClearsEsc then setEsc false s else s) :=
  (onInstance_legal hl _).trans (if_neg (by omega))

theorem exec_feedDelim_held {s : State} (hl : s.cfg.legal = true) (hlen : 0 < s.len) :
    exec .feedDelim s = dispatch (setEsc false (recordEscAtDelim s)) :=
  (onInstance_legal hl _).trans (if_pos hlen)

/-- A delimiter behind an escape adds its condition to the trace, and changes nothing else (60_exceptions.md R167). -/
theorem recordEscAtDelim_eq (s : State) :
    recordEscAtDelim s = { s with conds := s.conds ++ if s.esc then [.escAtDelim] else [] } := by
  unfold recordEscAtDelim
  split
  · rfl
  · rw [List.append_nil]

/-- Settles O12: an empty buffer is not dispatched; a held one is, with the escape cleared and its condition noted. -/
theorem feedDelimResult : Obligations.FeedDelimResult := by
  unfold Obligations.FeedDelimResult
  refine fun s hl => ⟨exec_feedDelim_empty hl, fun cb hlen hcb => ?_⟩
  have hne : cb ≠ [] := List.ne_nil_of_length_pos (commandBuffer_length hcb ▸ hlen)
  rw [exec_feedDelim_held hl hlen, recordEscAtDelim_eq]
  exact dispatch_runs_header
    (s := setEsc false { s with conds := s.conds ++ if s.esc then [.escAtDelim] else [] }) hl hcb hne

/-- Settles O13: FEED_TESC is an append with the escape cleared. -/
theorem feedTescResult : Obligations.FeedTescResult := by
  unfold Obligations.FeedTescResult
  intro s hl
  rw [exec_feedTesc hl]
  exact ⟨append_below (s := setEsc false s) _, fun cb => append_forced_runs_header (s := setEsc false s) _ hl⟩

/-- Settles O14: FEED_TDELIM is an append with the escape cleared. -/
theorem feedTdelimResult : Obligations.FeedTdelimResult := by
  unfold Obligations.FeedTdelimResult
  intro s hl
  rw [exec_feedTdelim hl]
  exact ⟨append_below (s := setEsc false s) _, fun cb => append_forced_runs_header (s := setEsc false s) _ hl⟩

/-- Settles O15: FEED_OTHER drops the byte after an escape, and is an append otherwise. -/
theorem feedOtherResult : Obligations.FeedOtherResult := by
  unfold Obligations.FeedOtherResult
  refine fun s b hl => ⟨fun he => exec_feedOther_escaped hl he b, fun he hroom => ?_, fun cb he hfull hcb => ?_⟩
  · exact (exec_feedOther_literal hl he b).trans (append_below b hroom)
  · rw [exec_feedOther_literal hl he]
    exact append_forced_runs_header b hl hfull hcb

/-! What a row leaves unchanged. -/

theorem Dispatched.routed_ne {u t : State} (hd : Dispatched u t) : t.routed ≠ u.routed := by
  obtain ⟨cb, hcb, -⟩ := hd.routed
  simp [hcb]

/-- FEED_ESC, FEED_DELIM and the drop of an escaped byte store nothing. -/
theorem feed_cb_of_no_store {i : Instr} {s t : State} (hf : formatOf i = .rxByte)
    (hi : i = .feedEsc ∨ i = .feedDelim ∨ (s.esc = true ∧ ∃ b, i = .feedOther b)) (h : exec i s = .next t) :
    t.cb = s.cb := by
  obtain ⟨hl, -⟩ := feed_cases hf h
  rcases hi with rfl | rfl | ⟨he, b, rfl⟩
  · rw [feedEscResult s hl] at h
    injection h with h
    rw [← h]
    split <;> rfl
  · rcases Nat.eq_zero_or_pos s.len with hlen | hlen
    · rw [exec_feedDelim_empty hl hlen] at h
      injection h with h
      rw [← h]
      split <;> rfl
    · rw [exec_feedDelim_held hl hlen, recordEscAtDelim_eq] at h
      obtain ⟨-, -, hcb, -⟩ := Dispatched.frame (dispatch_next.1 h)
      exact hcb
  · rw [exec_feedOther_escaped hl he] at h
    injection h with h
    rw [← h]
    rfl

/-- Where a FEED operation routes no buffer, it has no effect of a command. -/
theorem feed_frame_of_not_routed {i : Instr} {s t : State} (hf : formatOf i = .rxByte) (h : exec i s = .next t)
    (hr : t.routed = s.routed) :
    t.txdelay = s.txdelay ∧ t.mode = s.mode ∧ t.events = s.events ∧ t.returnInRead = s.returnInRead := by
  obtain ⟨-, ⟨_, _, _, -, -, rfl⟩ | ⟨v, rfl⟩ | ⟨-, -, hd⟩ | ⟨v, hd⟩⟩ := feed_cases hf h
  · exact ⟨rfl, rfl, rfl, rfl⟩
  · exact ⟨rfl, rfl, rfl, rfl⟩
  · exact absurd (hr.trans (recordEscAtDelim_sameOutput s).routed.symm) hd.routed_ne
  · exact absurd hr hd.routed_ne

/-- Settles O37: an append stores at `len`, and all other effects are those of the routed buffer. -/
theorem feedFrame : Obligations.FeedFrame := by
  unfold Obligations.FeedFrame
  intro i s t hf h
  obtain ⟨hcfg, hinputs, hout, hread⟩ := feed_frame hf h
  exact ⟨hcfg, hinputs, hout, hread, fun hi a => by rw [feed_cb_of_no_store hf hi h], feed_frame_of_not_routed hf h⟩

end Sys2Proof.Machine
end

section
/-! PROOFS. Received bytes as inputs (10_state.md R43, R44; 41_deframer.md R125, R126): a step feeds its byte behind the
gate, and with STOP the gate does not look at how the bytes are cut into reads. -/

namespace Sys2Proof.Machine

/-- Settles O5: taking the byte leaves the gate open, by the mode or by the mark of a Return in the same read. -/
theorem stepRunsDecodedByte : Obligations.StepRunsDecodedByte := by
  unfold Obligations.StepRunsDecodedByte
  intro s b first rest i more hl hi hdecode _ hgate
  obtain rfl : decodeRx b = i := by injection hdecode
  have hopen : gateOpen (takeInput first rest s) = true := by
    rcases hgate with hkiss | ⟨hcont, rfl, hmark⟩
    · exact gateOpen_of_kiss hkiss
    · exact gateOpen_of_continue hcont hmark
  exact (step_byte hl hi).trans (offerByte_open hopen b)

/-! With STOP. -/

theorem gateOpen_stop {s : State} (hstop : s.cfg.gateAfterReturn = .stop) : gateOpen s = decide (s.mode = .kiss) := by
  simp [gateOpen, hstop]

theorem offerByte_cfg {b : Byte} {s t : State} (h : offerByte b s = .next t) : t.cfg = s.cfg := by
  unfold offerByte at h
  split at h
  · exact feed_cfg h
  · cases h; rfl

/-- What becomes of an offered byte depends on the mode, and not on the inputs or the read marker. -/
theorem offerByte_stop {b : Byte} {s t : State} (hstop : s.cfg.gateAfterReturn = .stop)
    (h : offerByte b s = .next t) (is : List Input) (r : Bool) :
    ∃ r', offerByte b (setDrive is s.mode r s) = .next (setDrive is t.mode r' t) := by
  have hgate : gateOpen (setDrive is s.mode r s) = gateOpen s :=
    (gateOpen_stop (s := setDrive is s.mode r s) hstop).trans (gateOpen_stop hstop).symm
  cases hopen : gateOpen s
  · rw [offerByte_closed hopen] at h
    cases h
    exact ⟨r, offerByte_closed (hgate.trans hopen) b⟩
  · rw [offerByte_open hopen] at h
    obtain ⟨ret, -, hmode, -, hrun⟩ := exec_setDrive h
    rw [hmode]
    exact ⟨ret || r, (offerByte_open (hgate.trans hopen) b).trans (hrun is s.mode r)⟩

/-- A sequence of received bytes, each with its read marker, as inputs. -/
def markedBytes (bs : List (Byte × Bool)) : List Input := bs.map fun p => .byte p.1 p.2

/-- Whatever the read markers, one step per byte comes to the state of the drained bytes, up to the marker. -/
theorem runSteps_markedBytes {s t : State} {bs : List (Byte × Bool)} (hl : s.cfg.legal = true)
    (hstop : s.cfg.gateAfterReturn = .stop) (h : drainRest (bs.map Prod.fst) s = .next t) (r : Bool) :
    ∃ r', runSteps bs.length (setDrive (markedBytes bs) s.mode r s) = .next (setDrive [] t.mode r' t) := by
  induction bs generalizing s r with
  | nil => cases h; exact ⟨r, rfl⟩
  | cons p bs ih =>
    obtain ⟨b, first⟩ := p
    obtain ⟨u, hu, hrest⟩ := andThen_next.1 h
    have hcfg := offerByte_cfg hu
    obtain ⟨r₁, hoffer⟩ := offerByte_stop hstop hu (markedBytes bs) (!first && r)
    have hstep : step (setDrive (markedBytes ((b, first) :: bs)) s.mode r s) =
        .next (setDrive (markedBytes bs) u.mode r₁ u) :=
      (step_byte (s := setDrive (markedBytes ((b, first) :: bs)) s.mode r s) hl rfl).trans hoffer
    rw [List.length_cons, runSteps_succ, hstep, andThen_of_next]
    exact ih (hcfg ▸ hl) (hcfg ▸ hstop) hrest r₁

/-- Settles O56: a drain is the rest of a read that begins with it. -/
theorem chunksDoNotMatter : Obligations.ChunksDoNotMatter := by
  unfold Obligations.ChunksDoNotMatter
  intro s t bs hl hstop h
  cases bs with
  | nil => cases h; exact ⟨s.returnInRead, rfl⟩
  | cons p bs => exact runSteps_markedBytes (s := beginRead s) (bs := p :: bs) hl hstop h s.returnInRead

end Sys2Proof.Machine
end

section
/-! PROOFS. The rows of the Command Router as operations (42_router.md R130 to R146). An own-port row is the port filter
of R133 before the effect of its command code; the other rows are their effect. -/

namespace Sys2Proof.Machine

/-! The port filter. -/

theorem addressed_foreign {s : State} {port : Nibble} (h : port ≠ s.cfg.myPort) (f : State → State) :
    addressed port f s = record .unaddressed s := if_neg h

/-- An own-port row that does not read the command buffer is its effect. -/
theorem onInstance_addressed_own {s : State} (hl : s.cfg.legal = true) (f : State → State) :
    onInstance s (.next (addressed s.cfg.myPort f s)) = .next (f s) := by
  rw [onInstance_legal hl, addressed_own]

/-- An own-port row that reads the command buffer is its effect on that buffer. -/
theorem onCommand_addressed_own {s : State} {cb : List Byte} (hl : s.cfg.legal = true)
    (hcb : commandBuffer s = some cb) (f : List Byte → State → State) :
    onCommand s (fun cb => addressed s.cfg.myPort (f cb)) = .next (f cb s) := by
  rw [onCommand_of_held hl hcb, addressed_own]

/-- The row of a command code is the port filter before the routing of that code. DATA, TXDELAY and VENDOR need the
buffer to be held, the other rows do not ask for it. -/
theorem exec_ownCommand {s : State} {cb : List Byte} (hl : s.cfg.legal = true) (hcb : commandBuffer s = some cb)
    (port cmd : Nibble) : exec (ownCommand port cmd) s = .next (addressed port (routeOwn cmd cb) s) := by
  rcases nibble_cases cmd with
    rfl | rfl | rfl | rfl | rfl | rfl | rfl | rfl | rfl | rfl | rfl | rfl | rfl | rfl | rfl | rfl
  case inl | inr.inl | inr.inr.inr.inr.inr.inr.inl => exact onCommand_of_held hl hcb _
  all_goals exact onInstance_legal hl _

/-- Settles O27: each row is that of a command code, and the filter drops it. -/
theorem ownPortRowsFilterThePort : Obligations.OwnPortRowsFilterThePort := by
  unfold Obligations.OwnPortRowsFilterThePort
  intro s port cb i hl hport hcb hi
  obtain ⟨k, -, rfl⟩ : ∃ k ∈ List.range 16, ownCommand port (BitVec.ofNat 4 k) = i := List.mem_map.1 hi
  rw [exec_ownCommand hl hcb, addressed_foreign hport]
  rfl

/-! The rows without a buffer. -/

/-- Settles O25, with the mark of a Return in the read. -/
theorem returnExitsToCli : Obligations.ReturnExitsToCli := fun _ hl => ⟨true, onInstance_legal hl _⟩

/-- Settles O26: both rows record the condition and read none of their operands. -/
theorem unaddressedIgnored : Obligations.UnaddressedIgnored := fun _ _ _ hl =>
  ⟨onInstance_legal hl _, onInstance_legal hl _⟩

/-- Settles O31: behind the port filter each of the four rows has the identity as its effect. -/
theorem unimplementedCommandsDoNothing : Obligations.UnimplementedCommandsDoNothing := fun _ hl =>
  ⟨onInstance_addressed_own hl persistEffect, onInstance_addressed_own hl slotTimeEffect,
    onInstance_addressed_own hl txTailEffect, onInstance_addressed_own hl fullDuplexEffect⟩

/-- Settles O33: behind the port filter the nine rows share one effect. -/
theorem undefinedCommandsDoNothing : Obligations.UndefinedCommandsDoNothing := by
  unfold Obligations.UndefinedCommandsDoNothing
  intro s i hl hi
  simp only [List.mem_cons, List.not_mem_nil, or_false] at hi
  rcases hi with rfl | rfl | rfl | rfl | rfl | rfl | rfl | rfl | rfl <;>
    exact onInstance_addressed_own hl undefinedEffect

/-! DATA. -/

theorem dataEffect_header_only (h : Byte) (s : State) : dataEffect [h] s = s := rfl

theorem dataEffect_of_data {data : List Byte} (hd : data ≠ []) (h : Byte) (s : State) :
    dataEffect (h :: data) s = emit (.submit data s.cfg.dataPriority s.txdelay) s := by
  simp [dataEffect, commandData, hd]

/-- Settles O28: the row is its effect on the held buffer. -/
theorem dataSubmitsPayload : Obligations.DataSubmitsPayload := by
  unfold Obligations.DataSubmitsPayload
  intro s h data hl hcb
  have hrow : exec (.data s.cfg.myPort) s = .next (dataEffect (h :: data) s) :=
    onCommand_addressed_own hl hcb dataEffect
  rw [hrow]
  refine ⟨?_, fun hd => ?_⟩
  · rintro rfl
    rw [dataEffect_header_only]
  · rw [dataEffect_of_data hd]
    rfl

/-! TXDELAY and the default TXDELAY_PARSE. -/

theorem isDigit_iff (b : Byte) : isDigit b = true ↔ 0x30 ≤ b.toNat ∧ b.toNat ≤ 0x39 := by
  simp [isDigit, BitVec.le_def]

theorem digitValue_of_isDigit {b : Byte} (h : isDigit b = true) : digitValue b = BitVec.ofNat 32 (b.toNat - 0x30) := by
  obtain ⟨hlow, -⟩ := (isDigit_iff b).1 h
  have hle : 0x30#8 ≤ b := hlow
  apply BitVec.eq_of_toNat_eq
  rw [digitValue, BitVec.toNat_setWidth, BitVec.toNat_sub_of_le hle, BitVec.toNat_ofNat]
  rfl

theorem txdelayParse_standard {c : Config} (h : c.txdelayParse = .standard) (d : List Byte) :
    txdelayParse c d = parseDigits 0#32 d := by
  simp [txdelayParse, h]

theorem parseDigits_nonDigit {b : Byte} (h : isDigit b = false) (v : Word32) (rest : List Byte) :
    parseDigits v (b :: rest) = v := by
  simp [parseDigits, h]

theorem parseDigits_digit {b : Byte} (h : isDigit b = true) (n : Nat) (rest : List Byte) :
    parseDigits (BitVec.ofNat 32 n) (b :: rest) = parseDigits (BitVec.ofNat 32 (n * 10 + (b.toNat - 0x30))) rest := by
  rw [parseDigits, if_pos h, digitValue_of_isDigit h, BitVec.ofNat_add, BitVec.ofNat_mul]

/-- The loop of R138, which wraps at every digit, is the value of the leading digits as a natural number, cut to 32 bits
at the end. -/
theorem parseDigits_ofNat (n : Nat) (d : List Byte) :
    parseDigits (BitVec.ofNat 32 n) d =
      BitVec.ofNat 32 ((d.takeWhile isDigit).foldl (fun v b => v * 10 + (b.toNat - 0x30)) n) := by
  induction d generalizing n with
  | nil => rfl
  | cons b rest ih =>
    cases hb : isDigit b with
    | false => simp [parseDigits_nonDigit hb, hb]
    | true => rw [parseDigits_digit hb, ih, List.takeWhile_cons_of_pos hb, List.foldl_cons]

/-- Settles O30: the default function is the loop of R138 started at 0. -/
theorem defaultParseReadsDigits : Obligations.DefaultParseReadsDigits := by
  unfold Obligations.DefaultParseReadsDigits
  intro c d hstd
  have hdigit : (fun b : Byte => decide (0x30 ≤ b.toNat ∧ b.toNat ≤ 0x39)) = isDigit := by
    funext b
    rw [Bool.eq_iff_iff, decide_eq_true_iff, isDigit_iff]
  rw [hdigit, txdelayParse_standard hstd, parseDigits_ofNat, BitVec.toNat_ofNat]

theorem txDelayEffect_header_only (h : Byte) (s : State) : txDelayEffect [h] s = s := rfl

theorem txDelayEffect_of_data {data : List Byte} (hd : data ≠ []) (h : Byte) (s : State) :
    txDelayEffect (h :: data) s = setTxdelay (txdelayParse s.cfg data * 10#32) s :=
  if_pos (List.length_pos_iff.2 hd)

/-- Settles O29: the row is its effect on the held buffer; the default function reads 0 where no digit leads. -/
theorem txDelaySetsDelay : Obligations.TxDelaySetsDelay := by
  unfold Obligations.TxDelaySetsDelay
  intro s h data hl hcb
  have hrow : exec (.txDelay s.cfg.myPort) s = .next (txDelayEffect (h :: data) s) :=
    onCommand_addressed_own hl hcb txDelayEffect
  rw [hrow]
  refine ⟨?_, fun hd => ?_, ?_⟩
  · rintro rfl
    rw [txDelayEffect_header_only]
  · exact ⟨_, BitVec.toNat_mul _ _, by rw [txDelayEffect_of_data hd]; rfl⟩
  · rintro b rest hstd rfl hb
    have hnot : isDigit b = false := by
      rw [Bool.eq_false_iff, Ne, isDigit_iff]
      omega
    rw [txDelayEffect_of_data (List.cons_ne_nil _ _), txdelayParse_standard hstd, parseDigits_nonDigit hnot]
    rfl

/-! VENDOR. -/

/-- The row of a sub-command is its routing, whatever data follows (43_vendor.md R152). -/
theorem exec_decodeVendor {s : State} (hl : s.cfg.legal = true) (sub : Byte) (rest : List Byte) :
    exec (decodeVendor sub) s = .next (routeVendor (sub :: rest) s) := by
  by_cases hstats : sub = getRadioStatsByte
  · subst hstats
    exact onInstance_legal hl _
  · by_cases hsignal : sub = signalReportingByte
    · subst hsignal
      exact onInstance_legal hl _
    · rw [decodeVendor, if_neg hstats, if_neg hsignal, routeVendor, if_neg hstats, if_neg hsignal]
      exact onInstance_legal hl _

/-- Settles O32: the row hands the data after the header to the routing of sub-commands. -/
theorem vendorRunsSubcommand : Obligations.VendorRunsSubcommand := by
  unfold Obligations.VendorRunsSubcommand
  intro s h hl
  refine ⟨fun hcb => onCommand_addressed_own hl hcb vendorEffect, fun sub rest hcb => ?_⟩
  exact ⟨_, exec_decodeVendor hl sub rest, onCommand_addressed_own hl hcb vendorEffect⟩

/-! What a row leaves unchanged. -/

/-- Settles O38: of the things a header or vendor row can do, each but RETURN writes one element of the state, or the
trace of conditions with it. -/
theorem routerFrame : Obligations.RouterFrame := by
  unfold Obligations.RouterFrame
  intro i s t hf h
  rcases headerRow_cases hf h with
    rfl | ⟨_, rfl⟩ | ⟨hi, rfl⟩ | ⟨⟨p, hi⟩, _, rfl⟩ | ⟨⟨p, hi⟩, _, rfl⟩ | ⟨hi, rfl⟩
  case inl | inr.inl =>
    exact ⟨rfl, rfl, rfl, rfl, fun _ => rfl, fun _ => ⟨rfl, rfl, rfl, rfl⟩, fun _ => rfl, fun _ => rfl⟩
  case inr.inr.inl =>
    exact ⟨rfl, rfl, rfl, rfl, fun _ => rfl, fun hne => absurd hi hne, fun _ => rfl, fun ⟨hne, _⟩ => absurd hi hne⟩
  case inr.inr.inr.inl =>
    exact ⟨rfl, rfl, rfl, rfl, fun _ => rfl, fun _ => ⟨rfl, rfl, rfl, rfl⟩, fun _ => rfl,
      fun ⟨_, hne, _⟩ => absurd hi (hne p)⟩
  case inr.inr.inr.inr.inl =>
    exact ⟨rfl, rfl, rfl, rfl, fun _ => rfl, fun _ => ⟨rfl, rfl, rfl, rfl⟩, fun hne => absurd hi (hne p), fun _ => rfl⟩
  case inr.inr.inr.inr.inr =>
    obtain ⟨hcfg, hinputs, hcb, hout, hrouted, hdelay, hlen, hesc, hmode, hread⟩ := vendorUnknownEffect_frame s
    refine ⟨hcfg, hinputs, hout, hrouted, fun a => by rw [hcb], fun _ => ⟨hlen, hesc, hmode, hread⟩, fun _ => hdelay, ?_⟩
    rintro ⟨-, -, hvendor, hunknown⟩
    rcases hi with ⟨p, hp⟩ | ⟨b, hb⟩
    · exact absurd hp (hvendor p)
    · exact absurd hb (hunknown b)

end Sys2Proof.Machine
end

section
/-! PROOFS. A frame for `MY_PORT` as received bytes (41_deframer.md R115, R121; 42_router.md R133): whether its closing
delimiter or the forced dispatch routes it, it has the effect of its command on the state it was received in. -/

namespace Sys2Proof.Machine

theorem route_own {s : State} (hport : s.cfg.myPort ≠ 15#4) (cmd : Nibble) (data : List Byte) :
    route (headerByte s.cfg.myPort cmd :: data) s = routeOwn cmd (headerByte s.cfg.myPort cmd :: data) s := by
  simp [route, hport]

theorem routeOwn_data (cb : List Byte) (s : State) : routeOwn 0#4 cb s = dataEffect cb s := rfl

theorem routeOwn_txDelay (cb : List Byte) (s : State) : routeOwn 1#4 cb s = txDelayEffect cb s := rfl

theorem headerByte_delim {port cmd : Nibble} : headerByte port cmd = 0xC0#8 ↔ port = 12#4 ∧ cmd = 0#4 := by
  revert port cmd; decide

theorem headerByte_esc {port cmd : Nibble} : headerByte port cmd = 0xDB#8 ↔ port = 13#4 ∧ cmd = 11#4 := by
  revert port cmd; decide

/-- A stuffed frame of at most N - 1 bytes and its closing delimiter leave what `route` makes of the frame, with the
buffer and the escape flag cleared. -/
theorem feedAll_stuff_routes {s : State} {w : List Byte} (hl : s.cfg.legal = true) (he : s.esc = false)
    (hlen : s.len = 0) (hw : w ≠ []) (hfit : w.length + 1 ≤ s.cfg.n) :
    ∃ u, SameOutput s u ∧
      feedAll (stuff w ++ [0xC0#8]) s = .next (setEsc false (setLen 0 (route w (logRouted w u)))) := by
  have hcb : commandBuffer s = some [] := by rw [commandBuffer, hlen]; rfl
  rcases Nat.lt_or_eq_of_le hfit with hbelow | hfull
  · obtain ⟨m, hm, hheld⟩ := feedAll_stuff (w := w) hl he hcb (by omega)
    have hpos : 0 < s.len + w.length := Nat.add_pos_right _ (List.length_pos_iff.2 hw)
    refine ⟨{ s with cb := m, len := s.len + w.length }, ⟨rfl, rfl, rfl, rfl⟩, ?_⟩
    obtain ⟨t, ht, cb, hcb', rfl⟩ := feed_delim_held (s := { s with cb := m, len := s.len + w.length }) hl he hpos hheld
    obtain rfl : w = cb := Option.some.inj (hheld.symm.trans hcb')
    rw [feedAll_append, hm, andThen_of_next, feedAll, ht]
    rfl
  · obtain ⟨w', v, rfl⟩ : ∃ w' v, w = w' ++ [v] := ⟨_, _, (List.dropLast_append_getLast hw).symm⟩
    rw [List.length_append, List.length_singleton] at hfull
    obtain ⟨m, hm, hheld⟩ := feedAll_stuff (w := w') hl he hcb (by omega)
    have hlast := (feedAll_stuffByte (s := { s with cb := m, len := s.len + w'.length }) v hl he).trans
      (append_forced v (by simp only; omega) hheld)
    refine ⟨record .overflowTrunc (storeCb v { s with cb := m, len := s.len + w'.length }), ⟨rfl, rfl, rfl, rfl⟩, ?_⟩
    rw [stuff_append, stuff_singleton, feedAll_append, feedAll_append, hm, andThen_of_next, hlast, andThen_of_next]
    exact feedAll_delim_empty (by simpa using hl) rfl rfl []

/-- A frame for `MY_PORT` has the effect of its command, before the reset of R120. -/
theorem feedAll_ownFrame {s : State} {cmd : Nibble} {p : List Byte} (hl : s.cfg.legal = true) (he : s.esc = false)
    (hlen : s.len = 0) (hdelim : headerByte s.cfg.myPort cmd ≠ 0xC0#8) (hesc : headerByte s.cfg.myPort cmd ≠ 0xDB#8)
    (hfit : p.length + 2 ≤ s.cfg.n) :
    ∃ u, u.cfg = s.cfg ∧ u.events = s.events ∧ u.txdelay = s.txdelay ∧ feedAll (frame s.cfg.myPort cmd p) s =
      .next (setEsc false (setLen 0 (routeOwn cmd (headerByte s.cfg.myPort cmd :: p) u))) := by
  obtain ⟨-, hport, -⟩ := (legal_iff s.cfg).1 hl
  have hframe : frame s.cfg.myPort cmd p = 0xC0#8 :: (stuff (headerByte s.cfg.myPort cmd :: p) ++ [0xC0#8]) := by
    rw [stuff_cons, stuffByte_literal hdelim hesc]; rfl
  obtain ⟨u, ⟨hcfg, hevents, hdelay, -⟩, hrun⟩ :=
    feedAll_stuff_routes (w := headerByte s.cfg.myPort cmd :: p) hl he hlen (List.cons_ne_nil _ _) hfit
  refine ⟨logRouted (headerByte s.cfg.myPort cmd :: p) u, hcfg, hevents, hdelay, ?_⟩
  have hroute := route_own (s := logRouted (headerByte s.cfg.myPort cmd :: p) u) (hcfg ▸ hport) cmd p
  rw [logRouted_cfg, hcfg] at hroute
  rw [hframe, feedAll_delim_empty hl he hlen, hrun, hroute]

theorem feedAll_txDelayFrame {s : State} {p : List Byte} (hl : s.cfg.legal = true) (he : s.esc = false)
    (hlen : s.len = 0) (hp : p ≠ []) (hfit : p.length + 2 ≤ s.cfg.n) :
    ∃ t, feedAll (frame s.cfg.myPort 1#4 p) s = .next t ∧ t.cfg = s.cfg ∧ t.events = s.events ∧
      t.txdelay = txdelayParse s.cfg p * 10#32 ∧ t.len = 0 ∧ t.esc = false := by
  obtain ⟨u, hcfg, hevents, -, hrun⟩ :=
    feedAll_ownFrame (cmd := 1#4) hl he hlen (by simp [headerByte_delim]) (by simp [headerByte_esc]) hfit
  rw [routeOwn_txDelay, txDelayEffect_of_data hp, hcfg] at hrun
  exact ⟨_, hrun, hcfg, hevents, rfl, rfl, rfl⟩

theorem feedAll_dataFrame {s : State} {p : List Byte} (hl : s.cfg.legal = true) (he : s.esc = false)
    (hlen : s.len = 0) (hport : s.cfg.myPort ≠ 12#4) (hp : p ≠ []) (hfit : p.length + 2 ≤ s.cfg.n) :
    ∃ t, feedAll (frame s.cfg.myPort 0#4 p) s = .next t ∧
      t.events = s.events ++ [.submit p s.cfg.dataPriority s.txdelay] ∧ t.txdelay = s.txdelay ∧ t.len = 0 := by
  obtain ⟨u, hcfg, hevents, hdelay, hrun⟩ :=
    feedAll_ownFrame (cmd := 0#4) hl he hlen (by simp [headerByte_delim, hport]) (by simp [headerByte_esc]) hfit
  rw [routeOwn_data, dataEffect_of_data hp, hcfg, hdelay] at hrun
  exact ⟨_, hrun, by simp [hevents], hdelay, rfl⟩

/-- Settles O59: the first frame leaves an empty buffer and the delay 500, with which the second is submitted. -/
theorem delaySetThenDataSubmitted : Obligations.DelaySetThenDataSubmitted := by
  unfold Obligations.DelaySetThenDataSubmitted
  intro s p hinv hlen hesc hstd hn hport hp hfit
  obtain ⟨u, hu, hcfg, hevents, hdelay, hulen, huesc⟩ :=
    feedAll_txDelayFrame (p := [0x35#8, 0x30#8]) hinv.legal hesc hlen (List.cons_ne_nil _ _) hn
  have hvalue : parseDigits 0#32 [0x35#8, 0x30#8] * 10#32 = 500#32 := by decide
  rw [txdelayParse_standard hstd, hvalue] at hdelay
  obtain ⟨t, ht, htevents, htdelay, htlen⟩ :=
    feedAll_dataFrame (s := u) (hcfg ▸ hinv.legal) huesc hulen (hcfg ▸ hport) hp (hcfg ▸ hfit)
  rw [hcfg] at ht htevents
  rw [hevents, hdelay] at htevents
  refine ⟨t, ?_, htevents, htdelay.trans hdelay, htlen⟩
  rw [feedAll_append, hu, andThen_of_next, ht]

end Sys2Proof.Machine
end

section
/-! PROOFS. The Vendor Sub-Router (43_vendor.md): the rows of its sub-commands (R153 to R155), and its fallback reply as
the block's only output to the transport (R156). -/

namespace Sys2Proof.Machine

/-- Settles O34: both rows have the identity as their effect. -/
theorem vendorStubsDoNothing : Obligations.VendorStubsDoNothing := fun _ hl =>
  ⟨onInstance_legal hl _, onInstance_legal hl _⟩

/-- Settles O35: for every legal REPLY_CAP the request of the reply is encoded whole. -/
theorem unknownVendorReply : Obligations.UnknownVendorReply := by
  unfold Obligations.UnknownVendorReply
  intro s sub hl
  have hrow : exec (.vendorUnknown sub) s = .next (vendorUnknownEffect s) := onInstance_legal hl _
  rw [hrow, vendorUnknownEffect_legal hl]
  rfl

/-- `route` writes to the transport for an unknown vendor sub-command on `MY_PORT`, the fallback reply and no other
event, and for nothing else. -/
theorem route_txWrite {s : State} (hl : s.cfg.legal = true) (cb : List Byte) :
    ∃ es, (route cb s).events = s.events ++ es ∧ ∀ bytes, Event.txWrite bytes ∈ es →
      es = [.txWrite [0xC0#8, headerByte s.cfg.myPort 6#4, 0xFF#8, 0xC0#8]] ∧
      ∃ sub rest, cb = headerByte s.cfg.myPort 6#4 :: sub :: rest ∧ sub ≠ 0x01#8 ∧ sub ≠ 0x80#8 := by
  rcases route_cases cb s with e | ⟨_, -, e⟩ | ⟨_, -, e⟩ | ⟨_, -, -, e⟩ | ⟨_, -, -, e⟩ |
    ⟨sub, rest, hcb, hstats, hsignal, e⟩ <;> rw [e]
  case inr.inr.inl => exact ⟨[.setModeCli], rfl, by simp⟩
  case inr.inr.inr.inl => exact ⟨[.submit _ _ _], rfl, by simp⟩
  case inr.inr.inr.inr.inr =>
    rw [vendorUnknownEffect_legal hl]
    exact ⟨_, rfl, fun _ _ => ⟨rfl, sub, rest, hcb, hstats, hsignal⟩⟩
  all_goals exact ⟨[], by simp, by simp⟩

/-- Settles O48: a step adds events by dispatching a buffer alone, and there those of `route`. -/
theorem txWriteOnlyFromUnknownVendor : Obligations.TxWriteOnlyFromUnknownVendor := by
  unfold Obligations.TxWriteOnlyFromUnknownVendor
  intro s t hinv h
  rcases step_output h with hsame | ⟨u, ⟨hcfg, hevents, -, hrouted⟩, cb, -, rfl⟩
  · exact ⟨[], by simp [hsame.events], by simp⟩
  · obtain ⟨es, hes, htx⟩ := route_txWrite (s := logRouted cb u) (by simpa [hcfg] using hinv.legal) cb
    rw [logRouted_events, hevents] at hes
    rw [logRouted_cfg, hcfg] at htx
    refine ⟨es, hes, fun bytes hmem => ?_⟩
    obtain ⟨hreply, sub, rest, rfl, hsub⟩ := htx bytes hmem
    exact ⟨hreply, sub, rest, by simp [hrouted], hsub⟩

end Sys2Proof.Machine
end

section
/-! PROOFS. Exceptions (60_exceptions.md): the configurations that have no meaning (R184), and that from the invariant the
block always answers with a next state (R158). -/

namespace Sys2Proof.Machine

/-! The check of the configuration. -/

/-- Every operation stands behind the check of R184. -/
theorem exec_eq_onInstance (i : Instr) (s : State) : ∃ r, exec i s = onInstance s r := by
  cases i <;> exact ⟨_, rfl⟩

theorem legal_eq_false_iff (c : Config) : c.legal = false ↔ c.n < 2 ∨ c.myPort = 15#4 ∨ c.replyCap < 5 := by
  rw [← Bool.not_eq_true, legal_iff, not_and_or, not_and_or, Nat.not_le, Nat.not_le, not_ne_iff]

/-- Settles O10: operations and steps all stand behind the check of the configuration. -/
theorem illegalInstanceRefused : Obligations.IllegalInstanceRefused := by
  unfold Obligations.IllegalInstanceRefused
  intro s hbad
  have hillegal : s.cfg.legal = false := (legal_eq_false_iff s.cfg).2 hbad
  refine ⟨fun i => ?_, onInstance_illegal hillegal _⟩
  obtain ⟨r, hr⟩ := exec_eq_onInstance i s
  exact hr.trans (onInstance_illegal hillegal r)

/-! Every operation and every step answers. -/

/-- A row that is no received byte stops only where the command buffer it reads is not held. -/
theorem exec_answers_of_held {i : Instr} {s : State} {cb : List Byte} (hf : formatOf i ≠ .rxByte)
    (hl : s.cfg.legal = true) (hcb : commandBuffer s = some cb) : ∃ t, exec i s = .next t := by
  cases i with
  | feedEsc | feedDelim | feedTesc | feedTdelim | feedOther => exact absurd rfl hf
  | data | txDelay | vendor => exact ⟨_, onCommand_of_held hl hcb _⟩
  | _ => exact ⟨_, onInstance_legal hl _⟩

theorem exec_answers {s : State} (h : Inv s) (i : Instr) : ∃ t, exec i s = .next t := by
  by_cases hf : formatOf i = .rxByte
  · obtain ⟨t, ht, -⟩ := feedRow_inv hf h
    exact ⟨t, ht⟩
  · obtain ⟨cb, hcb⟩ := h.held
    exact exec_answers_of_held hf h.legal hcb

theorem offerByte_answers {s : State} (h : Inv s) (b : Byte) : ∃ t, offerByte b s = .next t := by
  cases hg : gateOpen s
  · exact ⟨s, offerByte_closed hg b⟩
  · rw [offerByte_open hg]
    exact exec_answers h (decodeRx b)

theorem step_answers {s : State} (h : Inv s) : ∃ t, step s = .next t := by
  cases hi : s.inputs with
  | nil => exact ⟨s, step_idle h.legal hi⟩
  | cons x rest =>
    have htake : ∀ f, Inv (takeInput f rest s) := fun _ => h.congr rfl rfl rfl rfl
    cases x with
    | byte b f =>
      rw [step_byte h.legal hi]
      exact offerByte_answers (htake f) b
    | encode cmd sel p cap ob => exact ⟨_, (step_encode h.legal hi).trans (onInstance_legal h.legal _)⟩
    | hostMode m => exact ⟨_, step_hostMode h.legal hi⟩

/-- Settles O46: the invariant gives the two things an operation can stop for, a legal configuration and the storage of
the frame in progress. -/
theorem blockNeverFaults : Obligations.BlockNeverFaults := fun _ h => ⟨step_answers h, exec_answers h⟩

end Sys2Proof.Machine
end

section
/-! PROOFS. How a step writes the mode flag (60_exceptions.md R177; 10_state.md R36, R49): a host write, or a Return frame
that the step routes. -/

namespace Sys2Proof.Machine

/-- From `s` to `t` a Return frame was routed, and the event that writes MODE was the last one. -/
structure ReturnRouted (s t : State) : Prop where
  mode : t.mode = .cli
  routed : ∃ data, t.routed = s.routed ++ [0xFF#8 :: data]
  events : t.events = s.events ++ [.setModeCli]

/-- `route` writes the mode for the Return header, and for nothing else (42_router.md R134). -/
theorem route_mode (cb : List Byte) (s : State) :
    (route cb s).mode = s.mode ∨ ∃ data, cb = 0xFF#8 :: data ∧ route cb s = returnEffect s := by
  rcases route_cases cb s with e | ⟨_, -, e⟩ | hreturn | ⟨_, -, -, e⟩ | ⟨_, -, -, e⟩ | ⟨_, _, -, -, -, e⟩
  case inr.inr.inl => exact .inr hreturn
  case inr.inr.inr.inr.inr =>
    obtain ⟨-, -, -, -, -, -, -, -, hmode, -⟩ := vendorUnknownEffect_frame s
    exact .inl (e ▸ hmode)
  all_goals exact .inl (congrArg State.mode e :)

theorem Dispatched.mode {u t : State} (hd : Dispatched u t) : t.mode = u.mode ∨ ReturnRouted u t := by
  obtain ⟨cb, -, rfl⟩ := hd
  rcases route_mode cb (logRouted cb u) with hmode | ⟨data, rfl, e⟩
  · exact .inl hmode
  · rw [e]
    exact .inr ⟨rfl, ⟨data, rfl⟩, rfl⟩

theorem feed_mode {i : Instr} {s t : State} (hf : formatOf i = .rxByte) (h : exec i s = .next t) :
    t.mode = s.mode ∨ ReturnRouted s t := by
  obtain ⟨-, ⟨_, _, _, -, -, rfl⟩ | ⟨v, rfl⟩ | ⟨-, -, hd⟩ | ⟨v, hd⟩⟩ := feed_cases hf h
  · exact .inl rfl
  · exact .inl rfl
  · rw [recordEscAtDelim_eq] at hd
    exact hd.mode.imp_right fun ⟨hmode, hrouted, hevents⟩ => ⟨hmode, hrouted, hevents⟩
  · exact hd.mode.imp_right fun ⟨hmode, hrouted, hevents⟩ => ⟨hmode, hrouted, hevents⟩

/-- A step keeps the mode, routes a Return frame, or takes a host write of the mode. -/
theorem step_mode {s t : State} (h : step s = .next t) :
    t.mode = s.mode ∨ ReturnRouted s t ∨ ∃ rest, s.inputs = .hostMode t.mode :: rest := by
  obtain ⟨-, ⟨-, rfl⟩ | ⟨b, f, rest, -, ⟨-, he⟩ | ⟨-, rfl⟩⟩ | ⟨_, _, _, _, _, rest, -, he⟩ | ⟨m, rest, hi, rfl⟩⟩ :=
    step_cases h
  case inr.inl.inl =>
    exact (feed_mode (formatOf_decodeRx b) he).imp_right fun ⟨hmode, hrouted, hevents⟩ =>
      .inl ⟨hmode, hrouted, hevents⟩
  case inr.inr.inl =>
    obtain ⟨-, _, _, -, -, rfl⟩ := encodeReq_next he
    exact .inl rfl
  case inr.inr.inr => exact .inr (.inr ⟨rest, hi⟩)
  all_goals exact .inl rfl

/-- Settles O49: a routed Return leads to CLI alone, so only a host write leads to KISS. -/
theorem kissLeftOnlyByReturnOrHost : Obligations.KissLeftOnlyByReturnOrHost := by
  unfold Obligations.KissLeftOnlyByReturnOrHost
  intro s t h
  rcases step_mode h with hkept | ⟨hcli, ⟨data, hrouted⟩, hevents⟩ | ⟨rest, hhost⟩
  · simp +contextual [hkept]
  · simp [hcli, hrouted, hevents]
  · exact ⟨fun _ hcli => .inl ⟨rest, hcli ▸ hhost⟩, fun _ hkiss => ⟨rest, hkiss ▸ hhost⟩⟩

end Sys2Proof.Machine
end

section
/-! PROOFS. The conditions one step records (60_exceptions.md R159, R172): the de-framer notes at most one of its own, the
framing conditions, before it routes, and the router none of these. -/

namespace Sys2Proof.Machine

/-- What one byte may add to the condition trace: at most one framing condition, and no ENC_TRUNC. -/
structure ByteConds (ks : List Condition) : Prop where
  framing : (ks.filter isFraming).length ≤ 1
  noTrunc : .encTrunc ∉ ks

/-- The conditions of the Command Router and the Vendor Sub-Router. -/
def routerConds : List Condition := [.unaddressed, .undefCmd, .unknownVendor]

/-- A framing condition or none, and then a condition of the router or none, are what one byte may add. -/
theorem byteConds_append {pre ks : List Condition} (hlen : pre.length ≤ 1) (hpre : .encTrunc ∉ pre)
    (hks : ∀ k ∈ ks, k ∈ routerConds) : ByteConds (pre ++ ks) where
  framing := by
    have hrouter : ∀ k ∈ routerConds, isFraming k = false := by decide
    have hnone : ks.filter isFraming = [] := List.filter_eq_nil_iff.2 fun k hk => by simp [hrouter k (hks k hk)]
    rw [List.filter_append, hnone, List.append_nil]
    exact (List.length_filter_le isFraming pre).trans hlen
  noTrunc hmem := (List.mem_append.1 hmem).elim hpre fun hk => absurd (hks _ hk) (by decide)

/-- `route` notes conditions of the router alone: the fallback reply is never truncated (43_vendor.md R155). -/
theorem route_conds_router {s : State} (hl : s.cfg.legal = true) (cb : List Byte) :
    ∃ ks, (route cb s).conds = s.conds ++ ks ∧ ∀ k ∈ ks, k ∈ routerConds := by
  rcases route_cases cb s with e | ⟨k, hk, e⟩ | ⟨_, -, e⟩ | ⟨_, -, -, e⟩ | ⟨_, -, -, e⟩ | ⟨_, _, -, -, -, e⟩ <;> rw [e]
  case inr.inl => exact ⟨[k], rfl, by rcases hk with rfl | rfl <;> decide⟩
  case inr.inr.inr.inr.inr =>
    rw [vendorUnknownEffect_legal hl]
    exact ⟨[.unknownVendor], rfl, by decide⟩
  all_goals exact ⟨[], (List.append_nil _).symm, by decide⟩

/-- The conditions of a dispatch, after those (`pre`) that the byte has noted before it. -/
theorem Dispatched.conds {s u t : State} {pre : List Condition} (hd : Dispatched u t) (hl : u.cfg.legal = true)
    (hu : u.conds = s.conds ++ pre) (hlen : pre.length ≤ 1) (hpre : .encTrunc ∉ pre) :
    ∃ ks, t.conds = s.conds ++ ks ∧ ByteConds ks := by
  obtain ⟨cb, -, rfl⟩ := hd
  obtain ⟨ks, hks, hrouter⟩ := route_conds_router (s := logRouted cb u) hl cb
  refine ⟨pre ++ ks, ?_, byteConds_append hlen hpre hrouter⟩
  rw [setEsc_conds, setLen_conds, hks, logRouted_conds, hu, List.append_assoc]

theorem feed_conds {i : Instr} {s t : State} (hf : formatOf i = .rxByte) (h : exec i s = .next t) :
    ∃ ks, t.conds = s.conds ++ ks ∧ ByteConds ks := by
  obtain ⟨hl, ⟨_, _, ks, -, hks, rfl⟩ | ⟨v, rfl⟩ | ⟨-, -, hd⟩ | ⟨v, hd⟩⟩ := feed_cases hf h
  · exact ⟨ks, rfl, by rcases hks with rfl | rfl | rfl <;> constructor <;> decide⟩
  · exact ⟨[], (List.append_nil _).symm, by constructor <;> decide⟩
  · rw [recordEscAtDelim_eq] at hd
    exact hd.conds hl rfl (by split <;> decide) (by split <;> decide)
  · exact hd.conds hl rfl (by decide) (by decide)

/-- Settles O54: of the inputs, a fed byte notes what `ByteConds` says, and an encode request ENC_TRUNC or nothing. -/
theorem oneFramingConditionPerStep : Obligations.OneFramingConditionPerStep := by
  unfold Obligations.OneFramingConditionPerStep
  intro s t h
  obtain ⟨-, ⟨-, rfl⟩ | ⟨b, f, rest, -, ⟨-, he⟩ | ⟨-, rfl⟩⟩ |
    ⟨cmd, sel, p, cap, ob, rest, hi, he⟩ | ⟨m, rest, -, rfl⟩⟩ := step_cases h
  case inr.inl.inl =>
    obtain ⟨ks, hks, hframing, htrunc⟩ := feed_conds (formatOf_decodeRx b) he
    exact ⟨ks, hks, hframing, fun hmem => absurd hmem htrunc⟩
  case inr.inr.inl =>
    obtain ⟨-, _, ks, hks, -, rfl⟩ := encodeReq_next he
    exact ⟨ks, rfl, by rcases hks with rfl | rfl <;> decide, fun _ => ⟨cmd, sel, p, cap, ob, rest, hi⟩⟩
  all_goals exact ⟨[], (List.append_nil _).symm, by decide, by simp⟩

end Sys2Proof.Machine
end

section
/-! PROOFS. The double escape (41_deframer.md R114; 70_reset_and_hazards.md R201): an abort drops the header held so far
and nothing else, so the bytes behind it are received as from an empty buffer. With N = 2 there is nothing to drop, for
the forced dispatch of R121 has routed every byte as it came. -/

namespace Sys2Proof.Machine

theorem feed_esc {s : State} (hl : s.cfg.legal = true) : feed 0xDB#8 s = .next (feedEscEffect s) :=
  onInstance_legal hl _

/-- With no escape pending, ESC ESC empties the buffer and clears the escape it has set. -/
theorem feedAll_doubleEsc {s : State} (hl : s.cfg.legal = true) (he : s.esc = false) (bs : List Byte) :
    feedAll (0xDB#8 :: 0xDB#8 :: bs) s = feedAll bs (record .doubleEsc (setLen 0 s)) := by
  have hset : feed 0xDB#8 s = .next (setEsc true s) := by simp [feed_esc hl, feedEscEffect, he]
  have habort : feed 0xDB#8 (setEsc true s) = .next (record .doubleEsc (setEsc false (setLen 0 (setEsc true s)))) :=
    feed_esc (s := setEsc true s) hl
  have hback : setEsc false (setLen 0 (setEsc true s)) = setLen 0 s := setEsc_self (s := setLen 0 s) he
  rw [feedAll, hset, andThen_of_next, feedAll, habort, hback, andThen_of_next]

/-- Behind the opening delimiter a header that needs no escape is appended. -/
theorem feedAll_delim_header {s : State} {h : Byte} (hl : s.cfg.legal = true) (he : s.esc = false) (hlen : s.len = 0)
    (hdelim : h ≠ 0xC0#8) (hesc : h ≠ 0xDB#8) (bs : List Byte) :
    feedAll (0xC0#8 :: h :: bs) s = andThen (append h s) (feedAll bs) := by
  have happend := feedAll_stuffByte h hl he
  rw [stuffByte_literal hdelim hesc] at happend
  rw [feedAll_delim_empty hl he hlen, ← List.singleton_append, feedAll_append, happend]

/-- For N >= 3 an aborted header leaves its byte in `CB[0]` and the condition DOUBLE_ESC. -/
theorem feedAll_abortedHeader {s : State} {h : Byte} (hl : s.cfg.legal = true) (he : s.esc = false) (hlen : s.len = 0)
    (hdelim : h ≠ 0xC0#8) (hesc : h ≠ 0xDB#8) (hn : 3 ≤ s.cfg.n) (bs : List Byte) :
    feedAll ([0xC0#8, h, 0xDB#8, 0xDB#8] ++ bs) s =
      feedAll bs { s with cb := Memory.write s.cb 0 h, conds := s.conds ++ [.doubleEsc] } := by
  have hleft : record .doubleEsc (setLen 0 (storeCb h s)) =
      { s with cb := Memory.write s.cb 0 h, conds := s.conds ++ [.doubleEsc] } := by
    simp [record, setLen, storeCb, hlen]
  rw [← hleft]
  calc feedAll ([0xC0#8, h, 0xDB#8, 0xDB#8] ++ bs) s
      = andThen (append h s) (feedAll (0xDB#8 :: 0xDB#8 :: bs)) := feedAll_delim_header hl he hlen hdelim hesc _
    _ = feedAll (0xDB#8 :: 0xDB#8 :: bs) (storeCb h s) := by rw [append_below h (by omega), andThen_of_next]
    _ = feedAll bs (record .doubleEsc (setLen 0 (storeCb h s))) := feedAll_doubleEsc (s := storeCb h s) hl he bs

/-! The smallest buffer. -/

/-- `t` has the configuration of `s` and the routed buffers of `s` followed by `bufs`, and no frame in progress. -/
structure RoutedSince (s : State) (bufs : List (List Byte)) (t : State) : Prop where
  cfg : t.cfg = s.cfg
  routed : t.routed = s.routed ++ bufs
  len : t.len = 0
  esc : t.esc = false

theorem RoutedSince.trans {s u t : State} {xs ys : List (List Byte)} (hu : RoutedSince s xs u)
    (ht : RoutedSince u ys t) : RoutedSince s (xs ++ ys) t where
  cfg := ht.cfg.trans hu.cfg
  routed := by rw [ht.routed, hu.routed, List.append_assoc]
  len := ht.len
  esc := ht.esc

/-- With N = 2 the empty buffer is at the capacity limit, so an append is the dispatch of its byte. -/
theorem append_smallest {s : State} (v : Byte) (hlen : s.len = 0) (hn : s.cfg.n = 2) :
    ∃ t, append v s = .next t ∧ RoutedSince s [[v]] t := by
  have hcb : commandBuffer s = some [] := by rw [commandBuffer, hlen]; rfl
  exact ⟨_, append_forced v (by omega) hcb, by simp, by simp, rfl, rfl⟩

/-- With N = 2 each byte of a stuffed frame is routed as a buffer of its own. -/
theorem feedAll_stuff_smallest {s : State} (w : List Byte) (hl : s.cfg.legal = true) (he : s.esc = false)
    (hlen : s.len = 0) (hn : s.cfg.n = 2) :
    ∃ t, feedAll (stuff w) s = .next t ∧ RoutedSince s (w.map fun b => [b]) t := by
  induction w generalizing s with
  | nil => exact ⟨s, rfl, rfl, (List.append_nil _).symm, hlen, he⟩
  | cons b w ih =>
    obtain ⟨u, hu, hsu⟩ := append_smallest b hlen hn
    obtain ⟨t, ht, hut⟩ := ih (s := u) (hsu.cfg ▸ hl) hsu.esc hsu.len (hsu.cfg ▸ hn)
    refine ⟨t, ?_, hsu.trans hut⟩
    rw [stuff_cons, feedAll_append, feedAll_stuffByte b hl he, hu, andThen_of_next, ht]

/-- With N = 2 the abort finds an empty buffer: the header has been routed, and each byte of the next frame is too. -/
theorem feedAll_abortedHeader_smallest {s : State} {h : Byte} (hl : s.cfg.legal = true) (he : s.esc = false)
    (hlen : s.len = 0) (hdelim : h ≠ 0xC0#8) (hesc : h ≠ 0xDB#8) (hn : s.cfg.n = 2) (w : List Byte) :
    ∃ t, feedAll ([0xC0#8, h, 0xDB#8, 0xDB#8] ++ (stuff w ++ [0xC0#8])) s = .next t ∧
      RoutedSince s ([h] :: w.map fun b => [b]) t := by
  obtain ⟨u, hu, hsu⟩ := append_smallest h hlen hn
  have hlu : u.cfg.legal = true := hsu.cfg ▸ hl
  obtain ⟨t, ht, hut⟩ :=
    feedAll_stuff_smallest (s := record .doubleEsc (setLen 0 u)) w hlu hsu.esc rfl (hsu.cfg ▸ hn)
  have hdelimiter : feedAll [0xC0#8] t = .next t := feedAll_delim_empty (hut.cfg ▸ hlu) hut.esc hut.len []
  refine ⟨t, ?_, hsu.trans ⟨hut.cfg, hut.routed, hut.len, hut.esc⟩⟩
  calc feedAll ([0xC0#8, h, 0xDB#8, 0xDB#8] ++ (stuff w ++ [0xC0#8])) s
      = andThen (append h s) (feedAll (0xDB#8 :: 0xDB#8 :: (stuff w ++ [0xC0#8]))) :=
        feedAll_delim_header hl he hlen hdelim hesc _
    _ = feedAll (stuff w ++ [0xC0#8]) (record .doubleEsc (setLen 0 u)) := by
        rw [hu, andThen_of_next, feedAll_doubleEsc hlu hsu.esc]
    _ = .next t := by rw [feedAll_append, ht, andThen_of_next, hdelimiter]

/-- Settles O58: the state the abort leaves for N >= 3 still has an empty buffer, in which a frame is routed whole. -/
theorem doubleEscapeDropsHeader : Obligations.DoubleEscapeDropsHeader := by
  unfold Obligations.DoubleEscapeDropsHeader
  intro s h hinv hlen he hdelim hesc
  refine ⟨fun hn => feedAll_abortedHeader hinv.legal he hlen hdelim hesc hn, fun w hn hw hfit => ?_, fun w hn => ?_⟩
  · obtain ⟨u, t, hu, ht, -, -, hrouted, htlen, htesc⟩ := feedAll_stuff_delim (w := w)
      (s := { s with cb := Memory.write s.cb 0 h, conds := s.conds ++ [.doubleEsc] }) hinv.legal he hlen hw hfit
    refine ⟨t, ?_, hrouted, htlen, htesc⟩
    rw [List.append_assoc, feedAll_abortedHeader hinv.legal he hlen hdelim hesc hn, feedAll_append, hu, andThen_of_next,
      feedAll, ht]
    rfl
  · obtain ⟨t, ht, hroutes⟩ := feedAll_abortedHeader_smallest hinv.legal he hlen hdelim hesc hn w
    rw [List.append_assoc, List.append_assoc]
    exact ⟨t, ht, hroutes.routed, hroutes.len, hroutes.esc⟩

end Sys2Proof.Machine
end
